-- ==== Sys2Proof/Word.lean ====
section
/-! DEFINITION. The word types of the BitBuffer block: buffer bytes and 32-bit host and command words. -/

namespace Sys2Proof

/-- One byte of the buffer (rule R38). -/
abbrev Byte := BitVec 8

/-- A 32-bit register or command word (rules R22 and R90). -/
abbrev Word := BitVec 32

end Sys2Proof
end

