-- ==== Sys2Proof/Syntax.lean ====
section
/-! DEFINITION. The commands of the BBX command set, one constructor per row of the opcode table (rule R99).
Fields have the width of their encoding; a value the command itself refuses (channel 0, mode code 3)
is still a command (rule R102). -/

namespace Sys2Proof

/-- The interpretation K of a format R command (rule R93); K = 3 is reserved and is no command. -/
inductive Kind where
  /-- U: unsigned -/
  | u
  /-- S: signed -/
  | s
  /-- F: IEEE-754 bit pattern -/
  | f
  deriving DecidableEq, Repr

/-- The target width WC of a format R command (rule R93): 8, 16, 32 or 64 bits. -/
inductive Width where
  | w8
  | w16
  | w32
  | w64
  deriving DecidableEq, Repr

/-- PART of FXENC (rule R97): 0 is the 16-bit position or delta, 1 the 32-bit velocity. -/
inductive EncPart where
  | pos
  | vel
  deriving DecidableEq, Repr

/-- The 18 commands (rules R91 to R99). -/
inductive Instr where
  /-- NOP, format N (rule R210) -/
  | nop
  /-- CLRERR, format N (rule R211) -/
  | clrerr
  /-- ALLOC, format I (rule R121): `n` bytes -/
  | alloc (n : BitVec 16)
  /-- SETBIT, format I (rule R122): bit index and value -/
  | setbit (i : BitVec 16) (v : Bool)
  /-- GETBIT, format I (rule R123): bit index -/
  | getbit (i : BitVec 16)
  /-- GETRANGE, format R (rule R124): length, kind, width; the start is ARG0 -/
  | getrange (l : BitVec 7) (k : Kind) (w : Width)
  /-- GETNEXT, format R (rule R125): length, kind, width; the start is CURSOR -/
  | getnext (l : BitVec 7) (k : Kind) (w : Width)
  /-- CRCGEN, format N (rule R142) -/
  | crcgen
  /-- FRAMECHK, format N (rule R143) -/
  | framechk
  /-- SETCH, format M (rule R162): channel number and mode code -/
  | setch (c : BitVec 4) (m : BitVec 2)
  /-- SETENC, format M (rule R163): encoder number and mode code -/
  | setenc (e : BitVec 4) (m : BitVec 2)
  /-- ATTACH, format A (rule R164): bus, type tag, address; the reply length is ARG0 -/
  | attach (b : BitVec 2) (t : BitVec 4) (a : BitVec 7)
  /-- SETID, format B (rule R165): the identity byte -/
  | setid (x : BitVec 8)
  /-- LAYOUT, format N (rule R166) -/
  | layout
  /-- CFGCLR, format N (rule R167) -/
  | cfgclr
  /-- FXCH, format F (rule R191): channel number -/
  | fxch (c : BitVec 4)
  /-- FXENC, format F (rule R192): encoder number and part -/
  | fxenc (e : BitVec 4) (p : EncPart)
  /-- FXPER, format P (rule R194): bus and slot -/
  | fxper (b : BitVec 2) (slot : BitVec 4)
  deriving DecidableEq, Repr

end Sys2Proof
end

