-- ==== Sys2Proof/WellFormed.lean ====
section
/-! DEFINITION. Which terms of `Instr` some legal command word encodes. -/

namespace Sys2Proof

/-- Kind F needs a width of 32 or 64 (rule R101); every other pair of kind and width is legal. -/
def legalKind (k : Kind) (w : Width) : Bool :=
  match k, w with
  | .f, .w8 => false
  | .f, .w16 => false
  | _, _ => true

/-- `i` has an encoding that rule R101 does not call illegal. The field widths are in the types, so the
one check left is that of kind against width. -/
def Instr.wellFormed (i : Instr) : Bool :=
  match i with
  | .getrange _ k w => legalKind k w
  | .getnext _ k w => legalKind k w
  | .nop => true
  | .clrerr => true
  | .alloc _ => true
  | .setbit _ _ => true
  | .getbit _ => true
  | .crcgen => true
  | .framechk => true
  | .setch _ _ => true
  | .setenc _ _ => true
  | .attach _ _ _ => true
  | .setid _ => true
  | .layout => true
  | .cfgclr => true
  | .fxch _ => true
  | .fxenc _ _ => true
  | .fxper _ _ => true

end Sys2Proof
end

