-- ==== Sys2Proof/Decode.lean ====
section
/-! DEFINITION. The command decoder of rules R90 to R101, total on every 32-bit word and refusing by name, and
the encoder written from the same formats. -/

namespace Sys2Proof

/-- Why a word is illegal (rule R101). The block reports every one of them as ILLEGAL. -/
inductive DecodeError where
  /-- no row of rule R99 has this OP -/
  | undefinedOpcode (op : BitVec 8)
  /-- a bit that the row's mask requires to be 0 is 1 -/
  | reservedBits
  /-- a format R word with K = 3 -/
  | reservedKind
  /-- a format R word with K = 2 and WC < 2 -/
  | narrowFloat
  deriving DecidableEq, Repr

/-- `match` and `mask` of the opcode map's row for opcode `op`, none where OP is undefined (rule R99). -/
def tableRow (op : BitVec 8) : Option (Word × Word) :=
  match op.toNat with
  | 0x00 => some (0x00000000#32, 0xFFFFFFFF#32)
  | 0x01 => some (0x00000001#32, 0xFFFFFFFF#32)
  | 0x02 => some (0x00000002#32, 0x0000FFFF#32)
  | 0x03 => some (0x00000003#32, 0x0000FEFF#32)
  | 0x04 => some (0x00000004#32, 0x0000FFFF#32)
  | 0x05 => some (0x00000005#32, 0xFFF080FF#32)
  | 0x06 => some (0x00000006#32, 0xFFF080FF#32)
  | 0x08 => some (0x00000008#32, 0xFFFFFFFF#32)
  | 0x09 => some (0x00000009#32, 0xFFFFFFFF#32)
  | 0x10 => some (0x00000010#32, 0xFFFFC0FF#32)
  | 0x11 => some (0x00000011#32, 0xFFFFC0FF#32)
  | 0x12 => some (0x00000012#32, 0xFFE000FF#32)
  | 0x13 => some (0x00000013#32, 0xFFFF00FF#32)
  | 0x14 => some (0x00000014#32, 0xFFFFFFFF#32)
  | 0x15 => some (0x00000015#32, 0xFFFFFFFF#32)
  | 0x18 => some (0x00000018#32, 0xFFFFF0FF#32)
  | 0x19 => some (0x00000019#32, 0xFFFFE0FF#32)
  | 0x1A => some (0x0000001A#32, 0xFFFFC0FF#32)
  | _ => none

/-- The opcode OP, bits [7:0] (rule R90). -/
def opcodeOf (w : Word) : BitVec 8 := w.extractLsb' 0 8

/-- K of a format R word (rule R93). -/
def kindOf (code : BitVec 2) : Option Kind :=
  match code.toNat with
  | 0 => some .u
  | 1 => some .s
  | 2 => some .f
  | _ => none

/-- WC of a format R word (rule R93): width = 8 · 2^WC. -/
def widthOf (code : BitVec 2) : Width :=
  match code.toNat with
  | 0 => .w8
  | 1 => .w16
  | 2 => .w32
  | _ => .w64

/-- PART of a format F word (rule R97). -/
def partOf (code : BitVec 1) : EncPart :=
  match code.toNat with
  | 0 => .pos
  | _ => .vel

/-- The operands of a format R word, handed to the command `mk` (rules R93 and R101). -/
def decodeRange (mk : BitVec 7 → Kind → Width → Instr) (w : Word) : Except DecodeError Instr :=
  match kindOf (w.extractLsb' 16 2) with
  | none => .error .reservedKind
  | some k =>
    if legalKind k (widthOf (w.extractLsb' 18 2)) then
      .ok (mk (w.extractLsb' 8 7) k (widthOf (w.extractLsb' 18 2)))
    else .error .narrowFloat

/-- The command that opcode `op` selects, its operands read from the fields of rules R91 to R98. -/
def decodeFields (op : BitVec 8) (w : Word) : Except DecodeError Instr :=
  match op.toNat with
  | 0x00 => .ok .nop
  | 0x01 => .ok .clrerr
  | 0x02 => .ok (.alloc (w.extractLsb' 16 16))
  | 0x03 => .ok (.setbit (w.extractLsb' 16 16) (w.getLsbD 8))
  | 0x04 => .ok (.getbit (w.extractLsb' 16 16))
  | 0x05 => decodeRange .getrange w
  | 0x06 => decodeRange .getnext w
  | 0x08 => .ok .crcgen
  | 0x09 => .ok .framechk
  | 0x10 => .ok (.setch (w.extractLsb' 8 4) (w.extractLsb' 12 2))
  | 0x11 => .ok (.setenc (w.extractLsb' 8 4) (w.extractLsb' 12 2))
  | 0x12 => .ok (.attach (w.extractLsb' 8 2) (w.extractLsb' 10 4) (w.extractLsb' 14 7))
  | 0x13 => .ok (.setid (w.extractLsb' 8 8))
  | 0x14 => .ok .layout
  | 0x15 => .ok .cfgclr
  | 0x18 => .ok (.fxch (w.extractLsb' 8 4))
  | 0x19 => .ok (.fxenc (w.extractLsb' 8 4) (partOf (w.extractLsb' 12 1)))
  | 0x1A => .ok (.fxper (w.extractLsb' 8 2) (w.extractLsb' 10 4))
  | _ => .error (.undefinedOpcode op)

/-- The command a word written to CMD encodes (rules R90 to R101): the row of its opcode must match it,
and its fields must be legal. -/
def decode (w : Word) : Except DecodeError Instr :=
  match tableRow (opcodeOf w) with
  | none => .error (.undefinedOpcode (opcodeOf w))
  | some row =>
    if w &&& row.2 = row.1 then decodeFields (opcodeOf w) w else .error .reservedBits

/-- K (rule R93). -/
def kindCode (k : Kind) : BitVec 2 :=
  match k with
  | .u => 0#2
  | .s => 1#2
  | .f => 2#2

/-- WC (rule R93). -/
def widthCode (w : Width) : BitVec 2 :=
  match w with
  | .w8 => 0#2
  | .w16 => 1#2
  | .w32 => 2#2
  | .w64 => 3#2

/-- PART (rule R97). -/
def partCode (p : EncPart) : BitVec 1 :=
  match p with
  | .pos => 0#1
  | .vel => 1#1

/-- Format N (rule R91). -/
def formatN (op : BitVec 8) : Word := 0#24 ++ op

/-- Format I (rule R92). -/
def formatI (idx : BitVec 16) (v : Bool) (op : BitVec 8) : Word := idx ++ 0#7 ++ BitVec.ofBool v ++ op

/-- Format R (rule R93). -/
def formatR (wc k : BitVec 2) (l : BitVec 7) (op : BitVec 8) : Word := 0#12 ++ wc ++ k ++ 0#1 ++ l ++ op

/-- Format M (rule R94). -/
def formatM (mode : BitVec 2) (ch : BitVec 4) (op : BitVec 8) : Word := 0#18 ++ mode ++ ch ++ op

/-- Format A (rule R95). -/
def formatA (addr : BitVec 7) (type : BitVec 4) (bus : BitVec 2) (op : BitVec 8) : Word :=
  0#11 ++ addr ++ type ++ bus ++ op

/-- Format B (rule R96). -/
def formatB (byte : BitVec 8) (op : BitVec 8) : Word := 0#16 ++ byte ++ op

/-- Format F (rule R97). -/
def formatF (part : BitVec 1) (ch : BitVec 4) (op : BitVec 8) : Word := 0#19 ++ part ++ ch ++ op

/-- Format P (rule R98). -/
def formatP (slot : BitVec 4) (bus : BitVec 2) (op : BitVec 8) : Word := 0#18 ++ slot ++ bus ++ op

/-- The opcode of each command (rule R99). -/
def Instr.opcode (i : Instr) : BitVec 8 :=
  match i with
  | .nop => 0x00#8
  | .clrerr => 0x01#8
  | .alloc _ => 0x02#8
  | .setbit _ _ => 0x03#8
  | .getbit _ => 0x04#8
  | .getrange _ _ _ => 0x05#8
  | .getnext _ _ _ => 0x06#8
  | .crcgen => 0x08#8
  | .framechk => 0x09#8
  | .setch _ _ => 0x10#8
  | .setenc _ _ => 0x11#8
  | .attach _ _ _ => 0x12#8
  | .setid _ => 0x13#8
  | .layout => 0x14#8
  | .cfgclr => 0x15#8
  | .fxch _ => 0x18#8
  | .fxenc _ _ => 0x19#8
  | .fxper _ _ => 0x1A#8

/-- The word of a command (rules R91 to R99). -/
def encode (i : Instr) : Word :=
  match i with
  | .nop => formatN i.opcode
  | .clrerr => formatN i.opcode
  | .alloc n => formatI n false i.opcode
  | .setbit idx v => formatI idx v i.opcode
  | .getbit idx => formatI idx false i.opcode
  | .getrange l k w => formatR (widthCode w) (kindCode k) l i.opcode
  | .getnext l k w => formatR (widthCode w) (kindCode k) l i.opcode
  | .crcgen => formatN i.opcode
  | .framechk => formatN i.opcode
  | .setch c m => formatM m c i.opcode
  | .setenc e m => formatM m e i.opcode
  | .attach b t a => formatA a t b i.opcode
  | .setid x => formatB x i.opcode
  | .layout => formatN i.opcode
  | .cfgclr => formatN i.opcode
  | .fxch c => formatF 0#1 c i.opcode
  | .fxenc e p => formatF (partCode p) e i.opcode
  | .fxper b slot => formatP slot b i.opcode

/-- The instruction the decoder reads from a table word of `nbits` bits. A command is one 32-bit word
(rule R90), so bits above `nbits` are 0 and the word goes to `decode` whole. -/
def decodeTableWord (nbits w : Nat) : Option Instr :=
  match decode (BitVec.ofNat 32 (w % 2 ^ nbits)) with
  | .ok i => some i
  | .error _ => none

end Sys2Proof
end

