-- ==== Sys2Proof/Config.lean ====
section
/-! DEFINITION. The implementation parameters of rule R7. BUF_CAP and BLOCK_BASE are parameters of a
machine and stand in `State` (log entries 1 and 2); this file holds their bounds and the values
`State.reset` gives them. -/

namespace Sys2Proof.Config

/-- The least BUF_CAP (rule R7, D5). -/
def bufCapMin : Nat := 100

/-- The greatest BUF_CAP (rule R7, D5). -/
def bufCapMax : Nat := 8192

/-- The default BUF_CAP (rule R7, D5). -/
def bufCapDefault : Nat := 256

/-- DESIGN CHOICE (log entry 2), unsafe: BLOCK_BASE is OPEN (rule R61, D4), and this is the value of
the one concrete machine `State.reset` is. -/
def blockBaseDefault : Nat := 0

/-- MAX_TLEN: the telemetry frame cap, in bytes (rule R7). -/
def maxTlen : Nat := 100

/-- CRC_POLY (rule R7). -/
def crcPoly : BitVec 16 := 0x1021#16

/-- CRC_INIT, fixed at 0x0000 for this spec (rule R7, C1, I3). -/
def crcInit : BitVec 16 := 0x0000#16

/-- The size of the register file in bytes: the BUF window starts here (rules R22 and R60). -/
def bufWindow : Nat := 0x100

end Sys2Proof.Config
end

