-- ==== Sys2Proof/Machine/State.lean ====
section
/-! DEFINITION. The state of the block (rule R42), the inputs the host and the platform give it, the ways a step
can stop, and the state after reset (rule R250). -/

namespace Sys2Proof.Machine

/-- The result codes of STATUS.CODE (rule R220); codes 13 to 15 are never produced. -/
inductive Code where
  | ok
  | illegal
  | oob
  | badlen
  | locked
  | range
  | duptype
  | dupaddr
  | toolarge
  | notcfg
  | noframe
  | badval
  | busacc
  deriving DecidableEq, Repr

/-- The outcome of the last FRAMECHK, STATUS.FRES (rule R25). -/
inductive FrameResult where
  /-- 0: none since reset or LAYOUT -/
  | unchecked
  /-- 1: pass -/
  | pass
  /-- 2: identity failure -/
  | identityFail
  /-- 3: checksum failure -/
  | checksumFail
  deriving DecidableEq, Repr

/-- A channel's mode (rules R31 and R39); the reserved code 3 is never stored. -/
inductive ChMode where
  | off
  | analog
  | digital
  deriving DecidableEq, Repr

/-- An encoder channel's mode (rules R32 and R39); the reserved code 3 is never stored. -/
inductive EncMode where
  | off
  | quadrature
  | pwm
  deriving DecidableEq, Repr

/-- A peripheral descriptor: TYPE, ADDR and RLEN of a valid PTAB entry (rule R37). -/
structure Peripheral where
  type : BitVec 4
  addr : BitVec 7
  rlen : BitVec 16
  deriving DecidableEq, Repr

/-- Buffer bytes by index (rule R38). An index not listed holds 0x00, the value after reset. -/
abbrev Memory := List Host.Cell

/-- The canonical form of a memory: indices strictly rise and no listed byte is 0x00. -/
abbrev Memory.wf (m : Memory) : Prop :=
  m.Pairwise (fun a b => a.1 < b.1) ∧ ∀ c ∈ m, c.2 ≠ 0#8

/-- The architectural state of rule R42. PTAB and PCOUNT are one list of descriptors for each bus, in
slot order: PCOUNT[b] is its length, and a slot's V bit says whether it is below that length (rules
R35 and R37, log entry 7). -/
structure Block where
  /-- BUF (rule R38) -/
  mem : Memory
  /-- LEN, in bytes (rule R28) -/
  len : BitVec 16
  /-- ARG0 (rule R26) -/
  arg0 : Word
  /-- RESULT (rule R27) -/
  result : BitVec 64
  /-- CURSOR, a bit index (rule R30) -/
  cursor : Word
  /-- CRC (rule R29) -/
  crc : BitVec 16
  /-- STATUS.CODE (rule R25) -/
  code : Code
  /-- STATUS.STICKY (rule R25) -/
  sticky : Bool
  /-- STATUS.VALID (rule R25) -/
  valid : Bool
  /-- STATUS.DISC (rule R25) -/
  disc : Bool
  /-- STATUS.CRCOK (rule R25) -/
  crcok : Bool
  /-- STATUS.LOCK (rule R25) -/
  lock : Bool
  /-- STATUS.FRES (rule R25) -/
  fres : FrameResult
  /-- CHMODE: channel c at index c - 1 (rule R31) -/
  chmode : Vector ChMode 12
  /-- ENCMODE: encoder e at index e - 1 (rule R32) -/
  encmode : Vector EncMode 6
  /-- IDENT (rule R33) -/
  ident : BitVec 8
  /-- TLEN, in bytes (rule R34) -/
  tlen : BitVec 7
  /-- PTAB and PCOUNT: bus b at index b - 1 (rules R35 and R37) -/
  ptab : Vector (List Peripheral) 3
  /-- CMD_LAST (rule R24) -/
  cmdLast : Word
  deriving DecidableEq, Repr

/-- The block right after reset (rule R250). -/
def Block.reset : Block where
  mem := []
  len := 0#16
  arg0 := 0#32
  result := 0#64
  cursor := 0#32
  crc := 0#16
  code := .ok
  sticky := false
  valid := false
  disc := false
  crcok := false
  lock := false
  fres := .unchecked
  chmode := Vector.replicate 12 .off
  encmode := Vector.replicate 6 .off
  ident := 0x00#8
  tlen := 0#7
  ptab := Vector.replicate 3 []
  cmdLast := 0#32

/-- What the outside can do to the block: a host access (rules R20 and R62 to R65) or the platform's reset
(rule R250). An access names its host address and its width in bytes. -/
inductive Input where
  /-- the host reads `width` bytes at `addr` -/
  | read (addr width : Nat)
  /-- the host writes the low `width` bytes of `data` at `addr` -/
  | write (addr width : Nat) (data : Word)
  /-- the platform asserts reset -/
  | reset
  deriving DecidableEq, Repr

/-- The machine: the block, its two parameters, and the host's side of the port. The parameters are
changed by no step (rule R250). -/
structure State extends Block where
  /-- BUF_CAP (rules R7 and R36; log entry 1) -/
  bufCap : Nat
  /-- BLOCK_BASE (rule R61; log entry 2) -/
  blockBase : Nat
  /-- the model's own: the inputs not performed yet, next first (rule R21; log entry 3) -/
  inputs : List Input
  /-- the model's own: the data of the latest host read (rules R62 and R65; log entry 4) -/
  rdata : Word
  deriving DecidableEq, Repr

/-- Why a step stops. -/
inductive Fault where
  /-- Raised by a host access at an address below BLOCK_BASE: it is not the block's, and the spec says nothing of
  it (rule R61; log entry 5). Safe: the model stops where the platform goes on. No command raises it. -/
  | outsideWindow (addr : Nat)
  deriving DecidableEq, Repr

/-- Why the model gives a step no meaning. -/
inductive Refusal where
  /-- Raised by an arm of `exec` whose command has no meaning yet; there is none. Safe. -/
  | notModelled (mnemonic : String)
  deriving DecidableEq, Repr

/-- The outcome of a step or of a command. -/
abbrev Result := Host.Outcome State Fault Refusal

/-- The machine right after reset: the block as rule R250 says, BUF_CAP at its default (rule R7), and
nothing asked of the block yet. BLOCK_BASE is the log's (entry 2). -/
def State.reset : State where
  toBlock := Block.reset
  bufCap := Config.bufCapDefault
  blockBase := Config.blockBaseDefault
  inputs := []
  rdata := 0#32

end Sys2Proof.Machine
end

