-- ==== Sys2Proof/Machine/Ops.lean ====
section
/-! DEFINITION. The operations every meaning shares: buffer bytes and bits, the extraction of a bit range, ending a
command with success or with an error. -/

namespace Sys2Proof.Machine

/-- Byte `a` of the buffer (rule R10, BUF[j]); a byte not listed is 0x00 (rule R38). -/
def Memory.read (m : Memory) (a : Nat) : Byte :=
  match m with
  | [] => 0#8
  | c :: rest => if c.1 = a then c.2 else Memory.read rest a

/-- `c` put before the first listed byte of a higher index. -/
def Memory.insert (m : Memory) (c : Host.Cell) : Memory :=
  match m with
  | [] => [c]
  | d :: rest => if c.1 < d.1 then c :: d :: rest else d :: Memory.insert rest c

/-- Byte `a` of the buffer becomes `v`; a byte that becomes 0x00 is listed no more. -/
def Memory.write (m : Memory) (a : Nat) (v : Byte) : Memory :=
  let others := m.filter (fun c => c.1 ≠ a)
  if v = 0#8 then others else Memory.insert others (a, v)

/-- `MemRead(a, n)`: the little-endian value of `n` bytes (rules R10 and R66). -/
def Memory.readBytes (m : Memory) (a n : Nat) : Nat :=
  match n with
  | 0 => 0
  | k + 1 => Memory.readBytes m a k + (Memory.read m (a + k)).toNat * 2 ^ (8 * k)

/-- `MemWrite(a, n, v)`: bits 8k+7 to 8k of `v` go to byte `a + k` (rules R10 and R66). -/
def Memory.writeBytes (m : Memory) (a n : Nat) (v : Word) : Memory :=
  match n with
  | 0 => m
  | k + 1 => Memory.write (Memory.writeBytes m a k v) (a + k) (v.extractLsb' (8 * k) 8)

/-- `Bit(i)`: bit i mod 8 of byte i / 8 (rules R9 and R10). -/
def Memory.bit (m : Memory) (i : Nat) : Bool := (Memory.read m (i / 8)).getLsbD (i % 8)

/-- `b` with bit `k` set to `v` and its other bits unchanged. -/
def putBit (b : Byte) (k : Nat) (v : Bool) : Byte :=
  if v then b ||| (1#8 <<< k) else b &&& ~~~(1#8 <<< k)

/-- `SetBitB(i, v)`: buffer bit `i` becomes `v` (rule R10). -/
def Memory.setBit (m : Memory) (i : Nat) (v : Bool) : Memory :=
  Memory.write m (i / 8) (putBit (Memory.read m (i / 8)) (i % 8) v)

/-- `Raw(s, L)`: the sum of Bit(s+j) · 2^j over j < L (rule R10). -/
def Memory.raw (m : Memory) (s l : Nat) : Nat :=
  match l with
  | 0 => 0
  | k + 1 => Memory.raw m s k + (Memory.bit m (s + k)).toNat * 2 ^ k

/-- Bytes `a` to `a + n - 1` of the buffer, lowest index first. -/
def Memory.bytes (m : Memory) (a n : Nat) : List Byte :=
  (List.range n).map (fun k => Memory.read m (a + k))

/-- `sext_64(v, w)`: the low `w` bits of `v`, bit w - 1 the sign, as 64 bits in two's complement (rule R10). -/
def signExtend64 (v w : Nat) : BitVec 64 := (BitVec.ofNat w v).signExtend 64

/-- `zext_64(v)` (rule R10). -/
def zeroExtend64 (v : Nat) : BitVec 64 := BitVec.ofNat 64 v

/-- The number of bits in the allocated buffer, 8·LEN (rule R28). -/
def State.bitLength (s : State) : Nat := 8 * s.len.toNat

/-- An error is recorded: CODE becomes `e` and STICKY 1, and nothing else changes (rule R221). -/
def State.withError (e : Code) (s : State) : State := { s with code := e, sticky := true }

/-- CODE becomes OK; STICKY stays as it is (rules R227 and R210). -/
def State.withOk (s : State) : State := { s with code := .ok }

/-- `raise Error(e)`: the command or access ends with the error recorded (rules R10 and R221). An error is an
outcome, and the block goes on (rules R226 to R228). -/
def raise (e : Code) (s : State) : Result := .next (s.withError e)

/-- A command ends with success: `s` holds its effects, and CODE becomes OK. -/
def complete (s : State) : Result := .next s.withOk

/-- A command's checks have answered: the first error is raised on `s`, or the effects `t` stand (rule R11). -/
def settle (check : Option Code) (s t : State) : Result :=
  match check with
  | some e => raise e s
  | none => complete t

end Sys2Proof.Machine
end

