-- ==== Sys2Proof/Machine/Operands.lean ====
section
/-! DEFINITION. Operand forms: the numbers of channels, encoders and buses, mode codes, target widths, and the
checks of range and field operands. -/

namespace Sys2Proof.Machine

/-- An operand that names items 1 to `n`, as an index from 0; none outside that range (rule R102). -/
def numbered (n x : Nat) : Option (Fin n) :=
  if h : 1 ≤ x ∧ x ≤ n then some ⟨x - 1, by omega⟩ else none

/-- CH of SETCH and FXCH: 1 to 12 (rules R94 and R97). -/
def channelOf (c : BitVec 4) : Option (Fin 12) := numbered 12 c.toNat

/-- CH of SETENC and FXENC: 1 to 6 (rules R94 and R97). -/
def encoderOf (e : BitVec 4) : Option (Fin 6) := numbered 6 e.toNat

/-- BUS of ATTACH and FXPER: 1 to 3 (rules R95 and R98). -/
def busOf (b : BitVec 2) : Option (Fin 3) := numbered 3 b.toNat

/-- The channel mode of a mode code; code 3 is reserved (rule R39). -/
def chModeOf (m : BitVec 2) : Option ChMode :=
  match m.toNat with
  | 0 => some .off
  | 1 => some .analog
  | 2 => some .digital
  | _ => none

/-- The encoder mode of a mode code; code 3 is reserved (rule R39). -/
def encModeOf (m : BitVec 2) : Option EncMode :=
  match m.toNat with
  | 0 => some .off
  | 1 => some .quadrature
  | 2 => some .pwm
  | _ => none

/-- The mode code of a channel mode (rule R39). -/
def chModeCode (m : ChMode) : BitVec 2 :=
  match m with
  | .off => 0#2
  | .analog => 1#2
  | .digital => 2#2

/-- The mode code of an encoder mode (rule R39). -/
def encModeCode (m : EncMode) : BitVec 2 :=
  match m with
  | .off => 0#2
  | .quadrature => 1#2
  | .pwm => 2#2

/-- width = 8 · 2^WC (rule R93). -/
def widthBits (w : Width) : Nat :=
  match w with
  | .w8 => 8
  | .w16 => 16
  | .w32 => 32
  | .w64 => 64

/-- `Extract(s, L, K, width)` (rule R120). -/
def extract (m : Memory) (s l : Nat) (k : Kind) (w : Width) : BitVec 64 :=
  match k with
  | .u => zeroExtend64 (Memory.raw m s l)
  | .s => signExtend64 (Memory.raw m s l) (widthBits w)
  | .f => zeroExtend64 (Memory.raw m s l)

/-- The checks of GETRANGE and GETNEXT for a range of `l` bits from bit `start`, in their order (rules R124 and
R125). The first fails for a term no legal word encodes (rule R101). -/
def rangeCheck (s : State) (start l : Nat) (k : Kind) (w : Width) : Option Code :=
  if legalKind k w = false then some .illegal
  else if widthBits w < l then some .badlen
  else if s.bitLength < start + l then some .oob
  else none

/-- The checks of rule R190, in their order: the lock, the selected item's configuration, VALID, and the end of the
field. -/
def fieldCheck (s : State) (configured : Bool) (stop : Nat) : Option Code :=
  if s.lock = false then some .notcfg
  else if configured = false then some .notcfg
  else if s.valid = false then some .noframe
  else if s.bitLength < stop then some .oob
  else none

end Sys2Proof.Machine
end

