-- ==== Sys2Proof/Machine/BitBuffer.lean ====
section
/-! DEFINITION. The BitBuffer commands (40_bitbuffer.md). The ILLEGAL checks on reserved bits are the decoder's. -/

namespace Sys2Proof.Machine

/-- ALLOC (rule R121): the clear covers all BUF_CAP bytes. -/
def execAlloc (n : BitVec 16) (s : State) : Result :=
  if s.bufCap < n.toNat then raise .oob s
  else complete { s with len := n, mem := [], cursor := 0#32, valid := false, crcok := false }

/-- SETBIT (rule R122). -/
def execSetbit (i : BitVec 16) (v : Bool) (s : State) : Result :=
  if s.bitLength ≤ i.toNat then raise .oob s
  else complete { s with mem := Memory.setBit s.mem i.toNat v, valid := false }

/-- GETBIT (rule R123). -/
def execGetbit (i : BitVec 16) (s : State) : Result :=
  if s.bitLength ≤ i.toNat then raise .oob s
  else complete { s with result := zeroExtend64 (Memory.bit s.mem i.toNat).toNat }

/-- GETRANGE (rule R124): the range starts at ARG0. -/
def execGetrange (l : BitVec 7) (k : Kind) (w : Width) (s : State) : Result :=
  settle (rangeCheck s s.arg0.toNat l.toNat k w) s
    { s with result := extract s.mem s.arg0.toNat l.toNat k w }

/-- GETNEXT (rule R125): the range starts at CURSOR, which moves past it. -/
def execGetnext (l : BitVec 7) (k : Kind) (w : Width) (s : State) : Result :=
  settle (rangeCheck s s.cursor.toNat l.toNat k w) s
    { s with
      result := extract s.mem s.cursor.toNat l.toNat k w
      cursor := BitVec.ofNat 32 (s.cursor.toNat + l.toNat) }

end Sys2Proof.Machine
end

