-- ==== Sys2Proof/Machine/Checksum.lean ====
section
/-! DEFINITION. CRC16 and the frame gate (41_checksum.md). -/

namespace Sys2Proof.Machine

/-- One bit of rule R140: a left shift, and the polynomial XORed in when bit 15 was 1. -/
def crcShift (crc : BitVec 16) : BitVec 16 :=
  if crc.getLsbD 15 then (crc <<< 1) ^^^ Config.crcPoly else crc <<< 1

/-- `n` bits of rule R140. -/
def crcShifts (n : Nat) (crc : BitVec 16) : BitVec 16 :=
  match n with
  | 0 => crc
  | k + 1 => crcShifts k (crcShift crc)

/-- One byte of rule R140: it enters at bit 15 and is consumed in 8 shifts. -/
def crcByte (crc : BitVec 16) (d : Byte) : BitVec 16 := crcShifts 8 (crc ^^^ (d.setWidth 16 <<< 8))

/-- The CRC of a byte string from the register value `init` (rule R140, I3). -/
def crcFrom (init : BitVec 16) (d : List Byte) : BitVec 16 := d.foldl crcByte init

/-- `CRC16` (rule R140). -/
def crc16 (d : List Byte) : BitVec 16 := crcFrom Config.crcInit d

/-- `Payload`: the first LEN - 2 bytes (rule R141). -/
def State.payload (s : State) : List Byte := Memory.bytes s.mem 0 (s.len.toNat - 2)

/-- `Trailer`: the last two bytes, big-endian (rules R68 and R141). -/
def State.trailer (s : State) : BitVec 16 :=
  Memory.read s.mem (s.len.toNat - 2) ++ Memory.read s.mem (s.len.toNat - 1)

/-- CRC and CRCOK as a CRC computation leaves them (rules R142 and R143). -/
def State.withCrc (s : State) : State :=
  { s with crc := crc16 s.payload, crcok := crc16 s.payload == s.trailer }

/-- CRCGEN (rule R142). -/
def execCrcgen (s : State) : Result :=
  if s.len.toNat < 2 then raise .badlen s else complete s.withCrc

/-- FRAMECHK (rule R143): the identity byte, then the trailer's presence, then the checksum. -/
def execFramechk (s : State) : Result :=
  if s.len.toNat = 0 ∨ Memory.read s.mem 0 ≠ s.ident then
    complete { s with disc := true, valid := false, fres := .identityFail }
  else if s.len.toNat < 2 then
    complete { s with valid := false, crcok := false, fres := .checksumFail }
  else if s.withCrc.crcok then
    complete { s.withCrc with valid := true, disc := false, fres := .pass }
  else
    complete { s.withCrc with valid := false, fres := .checksumFail }

end Sys2Proof.Machine
end

