-- ==== Sys2Proof/Machine/Control.lean ====
section
/-! DEFINITION. The control commands (44_control.md). -/

namespace Sys2Proof.Machine

/-- NOP (rule R210). -/
def execNop (s : State) : Result := complete s

/-- CLRERR (rule R211). -/
def execClrerr (s : State) : Result := complete { s with sticky := false }

end Sys2Proof.Machine
end

