-- ==== Sys2Proof/Machine/Layout.lean ====
section
/-! DEFINITION. The layout functions (rules R160 and R161) and the layout configuration commands
(42_layout_config.md). -/

namespace Sys2Proof.Machine

/-- `chw`: the bits of a channel's field (rule R160). -/
def chWidth (m : ChMode) : Nat :=
  match m with
  | .analog => 12
  | .digital => 1
  | .off => 0

/-- `encw`: the bits of an encoder's fields, 16 and 32 (rule R160). -/
def encWidth (m : EncMode) : Nat :=
  match m with
  | .off => 0
  | .quadrature => 48
  | .pwm => 48

/-- The reply bits of a list of descriptors. -/
def replyBits (ps : List Peripheral) : Nat := (ps.map (fun p => p.rlen.toNat)).sum

/-- `ChStart(c)`, for c from 1 to 13 (rule R160). -/
def Block.chStart (s : Block) (c : Nat) : Nat := 8 + ((s.chmode.toList.take (c - 1)).map chWidth).sum

/-- `EncStart(e)`, for e from 1 to 7 (rule R160). -/
def Block.encStart (s : Block) (e : Nat) : Nat :=
  s.chStart 13 + ((s.encmode.toList.take (e - 1)).map encWidth).sum

/-- `PStart(b, slot)`, for b from 1 to 3 and slot up to PCOUNT[b] (rule R160). -/
def Block.pStart (s : Block) (b : Fin 3) (slot : Nat) : Nat :=
  s.encStart 7 + ((s.ptab.toList.take b.val).map replyBits).sum + replyBits (s.ptab[b].take slot)

/-- `PayloadBits` = PStart(3, PCOUNT[3]) (rule R160). -/
def Block.payloadBits (s : Block) : Nat := s.pStart 2 s.ptab[(2 : Fin 3)].length

/-- `LayoutTLEN` = ceil(PayloadBits / 8) + 2 bytes (rule R161). -/
def Block.layoutTlen (s : Block) : Nat := (s.payloadBits + 7) / 8 + 2

/-- SETCH (rule R162). -/
def execSetch (c : BitVec 4) (m : BitVec 2) (s : State) : Result :=
  if s.lock then raise .locked s
  else
    match channelOf c with
    | none => raise .range s
    | some k =>
      match chModeOf m with
      | none => raise .badval s
      | some mode => complete { s with chmode := s.chmode.set k mode }

/-- SETENC (rule R163). -/
def execSetenc (e : BitVec 4) (m : BitVec 2) (s : State) : Result :=
  if s.lock then raise .locked s
  else
    match encoderOf e with
    | none => raise .range s
    | some k =>
      match encModeOf m with
      | none => raise .badval s
      | some mode => complete { s with encmode := s.encmode.set k mode }

/-- The checks of ATTACH on bus `b`, after LOCKED and RANGE (rule R164). -/
def attachCheck (s : State) (b : Fin 3) (t : BitVec 4) (a : BitVec 7) : Option Code :=
  if s.arg0.toNat = 0 ∨ 0xFFFF < s.arg0.toNat then some .badval
  else if s.ptab[b].any (fun p => p.type == t) then some .duptype
  else if s.ptab[b].any (fun p => p.addr == a) then some .dupaddr
  else none

/-- ATTACH (rule R164): the reply bit length is ARG0, and the descriptor takes the bus's next slot. -/
def execAttach (b : BitVec 2) (t : BitVec 4) (a : BitVec 7) (s : State) : Result :=
  if s.lock then raise .locked s
  else
    match busOf b with
    | none => raise .range s
    | some k =>
      settle (attachCheck s k t a) s
        { s with ptab := s.ptab.set k (s.ptab[k] ++ [Peripheral.mk t a (s.arg0.setWidth 16)]) }

/-- SETID (rule R165): not subject to LOCK. -/
def execSetid (x : BitVec 8) (s : State) : Result := complete { s with ident := x, valid := false }

/-- LAYOUT (rule R166). -/
def execLayout (s : State) : Result :=
  if Config.maxTlen < s.layoutTlen then raise .toolarge s
  else
    complete
      { s with
        tlen := BitVec.ofNat 7 s.layoutTlen
        lock := true
        valid := false
        disc := false
        fres := .unchecked }

/-- CFGCLR (rule R167): allowed while locked. -/
def execCfgclr (s : State) : Result :=
  complete
    { s with
      chmode := Vector.replicate 12 .off
      encmode := Vector.replicate 6 .off
      ptab := Vector.replicate 3 []
      tlen := 0#7
      lock := false
      valid := false }

end Sys2Proof.Machine
end

