-- ==== Sys2Proof/Machine/Extract.lean ====
section
/-! DEFINITION. The field extraction commands (43_field_extract.md). -/

namespace Sys2Proof.Machine

/-- FXCH (rule R191). -/
def execFxch (c : BitVec 4) (s : State) : Result :=
  match channelOf c with
  | none => raise .range s
  | some k =>
    let start := s.chStart c.toNat
    let w := chWidth s.chmode[k]
    settle (fieldCheck s (s.chmode[k] != .off) (start + w)) s
      { s with
        result := zeroExtend64 (Memory.raw s.mem start w)
        cursor := BitVec.ofNat 32 (start + w) }

/-- The first bit of the part, counted from the encoder's start, and its width (rule R192). -/
def encPart (p : EncPart) : Nat × Nat :=
  match p with
  | .pos => (0, 16)
  | .vel => (16, 32)

/-- FXENC (rule R192). -/
def execFxenc (e : BitVec 4) (p : EncPart) (s : State) : Result :=
  match encoderOf e with
  | none => raise .range s
  | some k =>
    let start := s.encStart e.toNat + (encPart p).1
    let w := (encPart p).2
    settle (fieldCheck s (s.encmode[k] != .off) (start + w)) s
      { s with
        result := signExtend64 (Memory.raw s.mem start w) w
        cursor := BitVec.ofNat 32 (start + w) }

/-- RESULT of FXPER: the start in [31:0], RLEN in [47:32], the disconnect flag in [48] (rule R194). -/
def fxperResult (flag : Bool) (rlen : BitVec 16) (start : Nat) : BitVec 64 :=
  0#15 ++ BitVec.ofBool flag ++ rlen ++ BitVec.ofNat 32 start

/-- FXPER (rule R194). A slot the bus does not have is not configured, and has no range to check. -/
def execFxper (b : BitVec 2) (slot : BitVec 4) (s : State) : Result :=
  match busOf b with
  | none => raise .range s
  | some k =>
    match s.ptab[k][slot.toNat]? with
    | none => raise .notcfg s
    | some p =>
      let start := s.pStart k slot.toNat
      settle (fieldCheck s true (start + p.rlen.toNat)) s
        { s with
          result := fxperResult (Memory.bit s.mem start) p.rlen start
          cursor := BitVec.ofNat 32 start }

end Sys2Proof.Machine
end

