-- ==== Sys2Proof/Machine/Dispatch.lean ====
section
/-! DEFINITION. The dispatch of commands to their meanings. -/

namespace Sys2Proof.Machine

/-- What a command does to the block, its word already in CMD_LAST (rules R11 and R24). -/
def exec (i : Instr) (s : State) : Host.Outcome State Fault Refusal :=
  match i with
  | .nop => Sys2Proof.Machine.execNop s
  | .clrerr => Sys2Proof.Machine.execClrerr s
  | .alloc n => Sys2Proof.Machine.execAlloc n s
  | .setbit idx v => Sys2Proof.Machine.execSetbit idx v s
  | .getbit idx => Sys2Proof.Machine.execGetbit idx s
  | .getrange l k w => Sys2Proof.Machine.execGetrange l k w s
  | .getnext l k w => Sys2Proof.Machine.execGetnext l k w s
  | .crcgen => Sys2Proof.Machine.execCrcgen s
  | .framechk => Sys2Proof.Machine.execFramechk s
  | .setch c m => Sys2Proof.Machine.execSetch c m s
  | .setenc e m => Sys2Proof.Machine.execSetenc e m s
  | .attach b t a => Sys2Proof.Machine.execAttach b t a s
  | .setid x => Sys2Proof.Machine.execSetid x s
  | .layout => Sys2Proof.Machine.execLayout s
  | .cfgclr => Sys2Proof.Machine.execCfgclr s
  | .fxch c => Sys2Proof.Machine.execFxch c s
  | .fxenc e p => Sys2Proof.Machine.execFxenc e p s
  | .fxper b slot => Sys2Proof.Machine.execFxper b slot s

end Sys2Proof.Machine
end

