-- ==== Sys2Proof/Machine/Flags.lean ====
section
/-! DEFINITION. The codes of STATUS and the words the host reads at the packed registers (rules R22, R25, R31, R32,
R35 and R37). -/

namespace Sys2Proof.Machine

/-- The number of an error code (rule R220). -/
def codeBits (c : Code) : BitVec 4 :=
  match c with
  | .ok => 0#4
  | .illegal => 1#4
  | .oob => 2#4
  | .badlen => 3#4
  | .locked => 4#4
  | .range => 5#4
  | .duptype => 6#4
  | .dupaddr => 7#4
  | .toolarge => 8#4
  | .notcfg => 9#4
  | .noframe => 10#4
  | .badval => 11#4
  | .busacc => 12#4

/-- The number of a FRAMECHK outcome (rule R25). -/
def fresBits (f : FrameResult) : BitVec 2 :=
  match f with
  | .unchecked => 0#2
  | .pass => 1#2
  | .identityFail => 2#2
  | .checksumFail => 3#2

/-- STATUS, reserved bits 0 (rule R25). -/
def statusWord (s : State) : Word :=
  0#21 ++ fresBits s.fres ++ BitVec.ofBool s.lock ++ BitVec.ofBool s.crcok ++ BitVec.ofBool s.disc ++
    BitVec.ofBool s.valid ++ BitVec.ofBool s.sticky ++ codeBits s.code

/-- Two-bit codes packed from bit 0 up, the first lowest (rules R31 and R32). -/
def packCodes (codes : List (BitVec 2)) : Nat :=
  match codes with
  | [] => 0
  | c :: rest => c.toNat + 4 * packCodes rest

/-- CHMODE (rule R31). -/
def chmodeWord (s : State) : Word := BitVec.ofNat 32 (packCodes (s.chmode.toList.map chModeCode))

/-- ENCMODE (rule R32). -/
def encmodeWord (s : State) : Word := BitVec.ofNat 32 (packCodes (s.encmode.toList.map encModeCode))

/-- PCOUNT[b], the number of peripherals attached to a bus (rule R35). -/
def State.pcount (s : State) (b : Fin 3) : Nat := s.ptab[b].length

/-- PCOUNT (rule R35). -/
def pcountWord (s : State) : Word :=
  0#11 ++ BitVec.ofNat 5 (s.pcount 2) ++ 0#3 ++ BitVec.ofNat 5 (s.pcount 1) ++ 0#3 ++ BitVec.ofNat 5 (s.pcount 0)

/-- A valid PTAB entry: V = 1, TYPE, ADDR, reserved bits 0, RLEN (rule R37). -/
def peripheralWord (p : Peripheral) : Word := p.rlen ++ 0#4 ++ p.addr ++ p.type ++ 1#1

/-- PTAB[b][s]; an entry with V = 0 reads as 0 (rule R37). -/
def ptabWord (s : State) (b : Fin 3) (slot : Nat) : Word :=
  match s.ptab[b][slot]? with
  | some p => peripheralWord p
  | none => 0#32

end Sys2Proof.Machine
end

