-- ==== Sys2Proof/Machine/HostPort.lean ====
section
/-! DEFINITION. The block's window on the host (20_memory.md): the register map, register and buffer accesses, the
running of a command word, reset, and the routing of a host address. -/

namespace Sys2Proof.Machine

/-- The mapped registers (rule R22). -/
inductive Reg where
  | cmd
  | status
  | arg0
  | resultLo
  | resultHi
  | len
  | crc
  | cursor
  | chmode
  | encmode
  | ident
  | tlen
  | pcount
  | bufcap
  | ptab (b : Fin 3) (slot : Fin 16)
  deriving DecidableEq, Repr

/-- The offsets of the named registers (rule R22). -/
def namedRegs : List (Nat × Reg) :=
  [(0x00, .cmd), (0x04, .status), (0x08, .arg0), (0x10, .resultLo), (0x14, .resultHi), (0x18, .len), (0x1C, .crc),
    (0x20, .cursor), (0x24, .chmode), (0x28, .encmode), (0x2C, .ident), (0x30, .tlen), (0x34, .pcount), (0x38, .bufcap)]

/-- The register at an aligned offset below 0x100, none where the offset is unmapped: PTAB[b][s] is at
0x40 + 4·(16·(b-1) + s) (rules R22 and R37). -/
def regAt (off : Nat) : Option Reg :=
  if off < 0x40 then namedRegs.lookup off
  else some (.ptab (Fin.ofNat 3 ((off - 0x40) / 4 / 16)) (Fin.ofNat 16 ((off - 0x40) / 4)))

/-- The value the host reads at a register (rules R22 to R37). -/
def regValue (s : State) (r : Reg) : Word :=
  match r with
  | .cmd => s.cmdLast
  | .status => statusWord s
  | .arg0 => s.arg0
  | .resultLo => s.result.extractLsb' 0 32
  | .resultHi => s.result.extractLsb' 32 32
  | .len => s.len.setWidth 32
  | .crc => s.crc.setWidth 32
  | .cursor => s.cursor
  | .chmode => chmodeWord s
  | .encmode => encmodeWord s
  | .ident => s.ident.setWidth 32
  | .tlen => s.tlen.setWidth 32
  | .pcount => pcountWord s
  | .bufcap => BitVec.ofNat 32 s.bufCap
  | .ptab b slot => ptabWord s b slot.val

/-- A failing read: its error is recorded and it returns 0 (rules R62 and R221). -/
def failRead (e : Code) (s : State) : Result := raise e { s with rdata := 0#32 }

/-- A read that succeeds returns `v` and has no other effect (rules R62 and R65). -/
def giveRead (v : Word) (s : State) : Result := .next { s with rdata := v }

/-- Whether an access to the register file has the one legal width and alignment (rule R63). -/
def regAccessOk (off width : Nat) : Bool := width == 4 && off % 4 == 0

/-- A read of the register file (rules R63 and R65). -/
def readRegister (off width : Nat) (s : State) : Result :=
  if regAccessOk off width then
    match regAt off with
    | some r => giveRead (regValue s r) s
    | none => failRead .busacc s
  else failRead .busacc s

/-- The checks of an access of `width` bytes at buffer byte `j`, in their order (rule R62). -/
def bufCheck (s : State) (j width : Nat) : Option Code :=
  if (width ≠ 1 ∧ width ≠ 2 ∧ width ≠ 4) ∨ j % width ≠ 0 ∨ s.bufCap < j + width then some .busacc
  else if s.len.toNat < j + width then some .oob
  else none

/-- A read of the BUF window (rule R62). -/
def readBuffer (j width : Nat) (s : State) : Result :=
  match bufCheck s j width with
  | some e => failRead e s
  | none => giveRead (BitVec.ofNat 32 (Memory.readBytes s.mem j width)) s

/-- A write of the BUF window (rule R62). CODE stays as it is. -/
def writeBuffer (j width : Nat) (data : Word) (s : State) : Result :=
  match bufCheck s j width with
  | some e => raise e s
  | none => .next { s with mem := Memory.writeBytes s.mem j width data, valid := false }

/-- A word written to CMD: CMD_LAST records it, then its command runs; an illegal word raises ILLEGAL (rules R24
and R101). -/
def runCommand (w : Word) (s : State) : Result :=
  match decode w with
  | .ok i => exec i { s with cmdLast := w }
  | .error _ => raise .illegal { s with cmdLast := w }

/-- A write of the register file (rules R63 and R64). -/
def writeRegister (off width : Nat) (data : Word) (s : State) : Result :=
  if regAccessOk off width then
    match regAt off with
    | some .cmd => runCommand data s
    | some .arg0 => .next { s with arg0 := data }
    | some .cursor => .next { s with cursor := data }
    | _ => raise .busacc s
  else raise .busacc s

/-- A host read at a host address (rules R60 to R65; log entries 5 and 6). -/
def hostRead (addr width : Nat) (s : State) : Result :=
  if addr < s.blockBase then .fault (.outsideWindow addr)
  else if addr - s.blockBase < Config.bufWindow then readRegister (addr - s.blockBase) width s
  else readBuffer (addr - s.blockBase - Config.bufWindow) width s

/-- A host write at a host address (rules R60 to R65; log entries 5 and 6). -/
def hostWrite (addr width : Nat) (data : Word) (s : State) : Result :=
  if addr < s.blockBase then .fault (.outsideWindow addr)
  else if addr - s.blockBase < Config.bufWindow then writeRegister (addr - s.blockBase) width data s
  else writeBuffer (addr - s.blockBase - Config.bufWindow) width data s

/-- The platform's reset: every piece of the block's state takes its reset value, and the parameters stay (rule
R250; log entry 9). -/
def platformReset (s : State) : Result := .next { s with toBlock := Block.reset }

/-- One input, already taken from the sequence. -/
def perform (x : Input) (s : State) : Result :=
  match x with
  | .read addr width => hostRead addr width s
  | .write addr width data => hostWrite addr width data s
  | .reset => platformReset s

end Sys2Proof.Machine
end

