-- ==== Sys2Proof/Machine/Step.lean ====
section
/-! DEFINITION. One step: the next input is performed whole (rules R20, R71 and R75). -/

namespace Sys2Proof.Machine

/-- One step. With no input to perform the block does nothing (rules R20, R21 and R41). -/
def step (s : State) : Host.Outcome State Fault Refusal :=
  match s.inputs with
  | [] => .next s
  | x :: rest => perform x { s with inputs := rest }

/-- `s` with a 4-byte write of the word `w` to CMD as its next input: the block fetches no instructions (rules R21
and R78), and a command word comes to it this way only (rule R90; log entry 3). -/
def State.withFetchWord (s : State) (nbits w : Nat) : State :=
  { s with inputs := .write s.blockBase 4 (BitVec.ofNat 32 (w % 2 ^ nbits)) :: s.inputs }

end Sys2Proof.Machine
end

