-- ==== Sys2Proof/Machine/Assembly.lean ====
section
/-! DEFINITION. The assembly language of rules R104 and R105: each line is one or more host accesses, and has a
spelling. Nothing in the block depends on it; it names sequences of `Input`. -/

namespace Sys2Proof.Machine

/-- The offset of a register (rules R22 and R37). -/
def regOffset (r : Reg) : Nat :=
  match r with
  | .cmd => 0x00
  | .status => 0x04
  | .arg0 => 0x08
  | .resultLo => 0x10
  | .resultHi => 0x14
  | .len => 0x18
  | .crc => 0x1C
  | .cursor => 0x20
  | .chmode => 0x24
  | .encmode => 0x28
  | .ident => 0x2C
  | .tlen => 0x30
  | .pcount => 0x34
  | .bufcap => 0x38
  | .ptab b slot => 0x40 + 4 * (16 * b.val + slot.val)

/-- One line of assembly (rules R104 and R105). -/
inductive Asm where
  /-- a command mnemonic: `wr CMD` of its word -/
  | command (i : Instr)
  | wr (r : Reg) (v : Word)
  | rd (r : Reg)
  | wrb (j : Nat) (v : BitVec 8)
  | wrh (j : Nat) (v : BitVec 16)
  | wrw (j : Nat) (v : Word)
  | rdb (j : Nat)
  | rdh (j : Nat)
  | rdw (j : Nat)
  | clrbit (i : BitVec 16)
  | getrangeAt (start : Word) (l : BitVec 7) (k : Kind) (w : Width)
  | attachR (b : BitVec 2) (t : BitVec 4) (a : BitVec 7) (r : Word)
  | seek (p : Word)
  | frame (bytes : List Byte)
  | chk
  deriving DecidableEq, Repr

/-- `wr REG, V` (rule R104), for a block at `base`. -/
def writeReg (base : Nat) (r : Reg) (v : Word) : Input := .write (base + regOffset r) 4 v

/-- `wr CMD` of a command's word (rule R104). -/
def issue (base : Nat) (i : Instr) : Input := writeReg base .cmd (encode i)

/-- The host address of buffer byte `j` (rule R60). -/
def bufAddress (base j : Nat) : Nat := base + Config.bufWindow + j

/-- `wrb j, b0 ; wrb j+1, b1 ; ...` (rule R105). -/
def writeBytesFrom (base j : Nat) (bytes : List Byte) : List Input :=
  match bytes with
  | [] => []
  | b :: rest => .write (bufAddress base j) 1 (b.setWidth 32) :: writeBytesFrom base (j + 1) rest

/-- The host accesses a line stands for (rules R104 and R105), for a block at `base`. DESIGN CHOICE (log entry 15),
unsafe: for a `frame` of more than 65535 bytes no word of ALLOC stands (rules R92 and R121); its length is taken modulo
2^16. -/
def expand (base : Nat) (line : Asm) : List Input :=
  match line with
  | .command i => [issue base i]
  | .wr r v => [writeReg base r v]
  | .rd r => [.read (base + regOffset r) 4]
  | .wrb j v => [.write (bufAddress base j) 1 (v.setWidth 32)]
  | .wrh j v => [.write (bufAddress base j) 2 (v.setWidth 32)]
  | .wrw j v => [.write (bufAddress base j) 4 v]
  | .rdb j => [.read (bufAddress base j) 1]
  | .rdh j => [.read (bufAddress base j) 2]
  | .rdw j => [.read (bufAddress base j) 4]
  | .clrbit i => [issue base (.setbit i false)]
  | .getrangeAt start l k w => [writeReg base .arg0 start, issue base (.getrange l k w)]
  | .attachR b t a r => [writeReg base .arg0 r, issue base (.attach b t a)]
  | .seek p => [writeReg base .cursor p]
  | .frame bytes => issue base (.alloc (BitVec.ofNat 16 bytes.length)) :: writeBytesFrom base 0 bytes
  | .chk => [.read (base + regOffset .status) 4]

/-- The name of a register (rule R22). -/
def regName (r : Reg) : String :=
  match r with
  | .cmd => "CMD"
  | .status => "STATUS"
  | .arg0 => "ARG0"
  | .resultLo => "RESULT_LO"
  | .resultHi => "RESULT_HI"
  | .len => "LEN"
  | .crc => "CRC"
  | .cursor => "CURSOR"
  | .chmode => "CHMODE"
  | .encmode => "ENCMODE"
  | .ident => "IDENT"
  | .tlen => "TLEN"
  | .pcount => "PCOUNT"
  | .bufcap => "BUFCAP"
  | .ptab b slot => "PTAB[" ++ Nat.repr (b.val + 1) ++ "][" ++ Nat.repr slot.val ++ "]"

/-- A mnemonic and its operands, separated by commas (rule R104). -/
def spell (mnemonic : String) (operands : List String) : String :=
  match operands with
  | [] => mnemonic
  | _ => mnemonic ++ " " ++ ", ".intercalate operands

/-- A bit pattern in decimal (rule R104). -/
def num {n : Nat} (v : BitVec n) : String := Nat.repr v.toNat

/-- KW (rule R104); a pair no legal word holds has no spelling. -/
def kwName (k : Kind) (w : Width) : Option String :=
  if legalKind k w then
    some ((match k with | .u => "u" | .s => "s" | .f => "f") ++ Nat.repr (widthBits w))
  else none

/-- M of `setch` (rule R104); the reserved code has no spelling. -/
def chModeName (m : BitVec 2) : Option String :=
  (chModeOf m).map fun mode => match mode with | .off => "none" | .analog => "analog" | .digital => "digital"

/-- M of `setenc` (rule R104); the reserved code has no spelling. -/
def encModeName (m : BitVec 2) : Option String :=
  (encModeOf m).map fun mode => match mode with | .off => "none" | .quadrature => "quad" | .pwm => "pwm"

/-- The spelling of a command (rule R104), none where the notation has none. -/
def commandText (i : Instr) : Option String :=
  match i with
  | .nop => some "nop"
  | .clrerr => some "clrerr"
  | .alloc n => some (spell "alloc" [num n])
  | .setbit idx v => some (spell "setbit" [num idx, Nat.repr v.toNat])
  | .getbit idx => some (spell "getbit" [num idx])
  | .getrange l k w => (kwName k w).map fun kw => spell "getrange" [num l, kw]
  | .getnext l k w => (kwName k w).map fun kw => spell "getnext" [num l, kw]
  | .crcgen => some "crcgen"
  | .framechk => some "framechk"
  | .setch c m => (chModeName m).map fun mode => spell "setch" [num c, mode]
  | .setenc e m => (encModeName m).map fun mode => spell "setenc" [num e, mode]
  | .attach b t a => some (spell "attach" [num b, num t, num a])
  | .setid x => some (spell "setid" [num x])
  | .layout => some "layout"
  | .cfgclr => some "cfgclr"
  | .fxch c => some (spell "fxch" [num c])
  | .fxenc e .pos => some (spell "fxenc" [num e, "pos"])
  | .fxenc e .vel => some (spell "fxenc" [num e, "vel"])
  | .fxper b slot => some (spell "fxper" [num b, num slot])

/-- The spelling of a line (rules R104 and R105), none where the notation has none. DESIGN CHOICE (log entry 15): a
`frame` of more than 65535 bytes, which `expand` takes, is spelt too. -/
def asmText (line : Asm) : Option String :=
  match line with
  | .command i => commandText i
  | .wr r v => some (spell "wr" [regName r, num v])
  | .rd r => some (spell "rd" [regName r])
  | .wrb j v => some (spell "wrb" [Nat.repr j, num v])
  | .wrh j v => some (spell "wrh" [Nat.repr j, num v])
  | .wrw j v => some (spell "wrw" [Nat.repr j, num v])
  | .rdb j => some (spell "rdb" [Nat.repr j])
  | .rdh j => some (spell "rdh" [Nat.repr j])
  | .rdw j => some (spell "rdw" [Nat.repr j])
  | .clrbit i => some (spell "clrbit" [num i])
  | .getrangeAt start l k w => (kwName k w).map fun kw => spell "getrange.at" [num start, num l, kw]
  | .attachR b t a r => some (spell "attach.r" [num b, num t, num a, num r])
  | .seek p => some (spell "seek" [num p])
  | .frame bytes => some (spell "frame" (bytes.map num))
  | .chk => some "chk"

end Sys2Proof.Machine
end

