-- ==== Sys2Proof/Safety.lean ====
section
/-! DEFINITION. What counts as a safe state and a safe run, in the terms the statements use: the invariants of rule
R40, the canonical memory, an error's whole effect, and a range's value bit by bit. -/

namespace Sys2Proof.Machine

/-- The invariants of rule R40, each named by its item, over a BUF_CAP that rule R7 allows and reply
lengths that rule R37 allows. Item 5 (no stored mode
code is 3) holds by the types of CHMODE and ENCMODE. -/
structure Invariant (s : State) : Prop where
  /-- rule R7: 100 ≤ BUF_CAP ≤ 8192 -/
  capacity : Config.bufCapMin ≤ s.bufCap ∧ s.bufCap ≤ Config.bufCapMax
  /-- item 1 -/
  length : s.len.toNat ≤ s.bufCap
  /-- item 2 -/
  types : ∀ b : Fin 3, (s.ptab[b].map (fun p => p.type)).Nodup
  /-- item 3 -/
  addresses : ∀ b : Fin 3, (s.ptab[b].map (fun p => p.addr)).Nodup
  /-- item 4 -/
  counts : ∀ b : Fin 3, s.pcount b ≤ 16
  /-- rule R37: RLEN is 1 to 65535 -/
  replies : ∀ b : Fin 3, ∀ p ∈ s.ptab[b], p.rlen ≠ 0#16
  /-- item 6 -/
  locked : s.lock = true → s.tlen.toNat = s.layoutTlen ∧ s.layoutTlen ≤ Config.maxTlen
  /-- item 6 -/
  unlocked : s.lock = false → s.tlen = 0#7
  /-- item 7 -/
  frame : s.valid = true → 2 ≤ s.len.toNat ∧ Memory.read s.mem 0 = s.ident ∧ crc16 s.payload = s.trailer

/-- The memory keeps its canonical form, and every byte at or above LEN is 0x00: ALLOC clears the buffer (rule R121)
and writes stay below LEN (rules R62 and R122). -/
structure MemoryOk (s : State) : Prop where
  canonical : Memory.wf s.mem
  allocated : ∀ c ∈ s.mem, c.1 < s.len.toNat

/-- What STATUS's fields say of each other: a recorded error leaves STICKY set (rule R221), and VALID goes with a
FRAMECHK that passed (rules R25 and R143). -/
structure StatusOk (s : State) : Prop where
  errors : s.code ≠ .ok → s.sticky = true
  gate : s.valid = true → s.fres = .pass ∧ s.disc = false ∧ s.crcok = true

/-- A command fails with the error `e`: CODE and STICKY record it and nothing else changes (rule R221). -/
def FailsWith (i : Instr) (s : State) (e : Code) : Prop :=
  exec i s = .next { s with code := e, sticky := true }

/-- No command has the word `w`: it is illegal (rule R101). -/
def Illegal (w : Word) : Prop := ∃ e, decode w = .error e

/-- What the word `w` encodes: the command `i` when it is legal, and no command otherwise (rule R101). -/
def Encodes (w : Word) (legal : Prop) (i : Instr) : Prop := (legal → decode w = .ok i) ∧ (¬legal → Illegal w)

/-- What a format R word `w` of the command `mk` encodes: the length in [14:8], K in [17:16] (0 U, 1 S, 2 F) and WC in
[19:18], with width 8 · 2^WC; a nonzero reserved bit, K = 3, and a kind F narrower than 32 bits are illegal (rules R93 and R101). -/
def EncodesRange (w : Word) (mk : BitVec 7 → Kind → Width → Instr) : Prop :=
  (w.extractLsb' 16 2 = 3#2 → Illegal w) ∧
    ∀ (k : Kind) (wd : Width), w.extractLsb' 16 2 = (match k with | .u => 0#2 | .s => 1#2 | .f => 2#2) →
      widthBits wd = 8 * 2 ^ (w.extractLsb' 18 2).toNat →
      Encodes w (w.getLsbD 15 = false ∧ w.extractLsb' 20 12 = 0#12 ∧ (k = .f → 32 ≤ widthBits wd))
        (mk (w.extractLsb' 8 7) k wd)

/-- A 4-byte read at offset `off` returns `v` and does nothing else (rule R65). -/
def RegisterReads (s : State) (off : Nat) (v : Word) : Prop :=
  ∀ rest, step { s with inputs := .read (s.blockBase + off) 4 :: rest } = .next { s with inputs := rest, rdata := v }

/-- Every piece of the block's state has the value rule R250 gives it after reset. -/
structure HasResetValues (b : Block) : Prop where
  buffer : ∀ j, Memory.read b.mem j = 0x00#8
  registers : b.len = 0#16 ∧ b.arg0 = 0#32 ∧ b.result = 0#64 ∧ b.cursor = 0#32 ∧ b.crc = 0#16 ∧ b.cmdLast = 0#32
  status : b.code = .ok ∧ b.sticky = false ∧ b.valid = false ∧ b.disc = false ∧ b.crcok = false ∧ b.lock = false ∧
    b.fres = .unchecked
  channels : ∀ c : Fin 12, b.chmode[c] = .off
  encoders : ∀ e : Fin 6, b.encmode[e] = .off
  identity : b.ident = 0x00#8
  frameLength : b.tlen = 0#7
  peripherals : ∀ k : Fin 3, b.ptab[k] = []

/-- The result codes rule R220 lets a command end with; OK ends every command that succeeds. ILLEGAL is the code of a
word no command has, and of a term of `Instr` that no word encodes (rule R101). -/
def codesOf (i : Instr) : List Code :=
  match i with
  | .nop => [.ok]
  | .clrerr => [.ok]
  | .alloc _ => [.ok, .oob]
  | .setbit _ _ => [.ok, .oob]
  | .getbit _ => [.ok, .oob]
  | .getrange _ _ _ => [.ok, .oob, .badlen]
  | .getnext _ _ _ => [.ok, .oob, .badlen]
  | .crcgen => [.ok, .badlen]
  | .framechk => [.ok]
  | .setch _ _ => [.ok, .locked, .range, .badval]
  | .setenc _ _ => [.ok, .locked, .range, .badval]
  | .attach _ _ _ => [.ok, .locked, .range, .duptype, .dupaddr, .badval]
  | .setid _ => [.ok]
  | .layout => [.ok, .toolarge]
  | .cfgclr => [.ok]
  | .fxch _ => [.ok, .oob, .range, .notcfg, .noframe]
  | .fxenc _ _ => [.ok, .oob, .range, .notcfg, .noframe]
  | .fxper _ _ => [.ok, .oob, .range, .notcfg, .noframe]

/-- The field extraction commands (rule R100). -/
def isFieldCommand (i : Instr) : Bool :=
  match i with
  | .fxch _ => true
  | .fxenc _ _ => true
  | .fxper _ _ => true
  | _ => false

/-- The commands that write RESULT (rule R23). -/
def writesResult (i : Instr) : Bool :=
  match i with
  | .getbit _ => true
  | .getrange _ _ _ => true
  | .getnext _ _ _ => true
  | _ => isFieldCommand i

/-- The bits of a byte, most significant first (rule R68). -/
def byteBits (b : Byte) : List Bool :=
  [b.getLsbD 7, b.getLsbD 6, b.getLsbD 5, b.getLsbD 4, b.getLsbD 3, b.getLsbD 2, b.getLsbD 1, b.getLsbD 0]

/-- Long division of a bit string by x^16 + x^12 + x^5 + 1: each bit is shifted in at the low end, and the divisor is
subtracted when a 1 leaves at the high end. It is written apart from `crc16`, to compare with it. -/
def divideBits (reg : BitVec 16) (bits : List Bool) : BitVec 16 :=
  match bits with
  | [] => reg
  | b :: rest =>
    divideBits
      (((reg <<< 1) ||| (BitVec.ofBool b).setWidth 16) ^^^ (if reg.getLsbD 15 then 0x1021#16 else 0x0000#16)) rest

/-- A run is safe when it ends in a state with STICKY = 0 (rule R228). -/
def SafeRun (k : Nat) (s : State) : Prop :=
  ∃ t, Sys2Proof.core.run k s = .next t ∧ t.sticky = false

/-- Bit `j` of what a range of `l` bits from bit `start` reads as (rule R120): the range's bits, zero-padded to the
width, and for kind S bit width - 1 of that repeated above the width. -/
def rangeBit (m : Memory) (start l : Nat) (k : Kind) (width j : Nat) : Bool :=
  match k with
  | .u => decide (j < l) && Memory.bit m (start + j)
  | .f => decide (j < l) && Memory.bit m (start + j)
  | .s =>
    if j < width then decide (j < l) && Memory.bit m (start + j)
    else decide (width ≤ l) && Memory.bit m (start + (width - 1))

end Sys2Proof.Machine
end

