-- ==== Sys2Proof/Certificates/Slice0/Obligations.lean ====
section
/-! DEFINITION. The statements for the provers, each formalising what the rules it names say. -/

open Sys2Proof Sys2Proof.Machine

/-! ### Encoding -/

/-- Rules R90 to R99: no bit of an encoding is dropped. -/
def Obligations.DecodeOfEncode : Prop :=
  ∀ i : Instr, i.wellFormed = true → decode (encode i) = .ok i

/-- Rules R90 to R99: a command has one word, and only well-formed commands have words. -/
def Obligations.EncodeOfDecode : Prop :=
  ∀ (w : Word) (i : Instr), decode w = .ok i → encode i = w ∧ i.wellFormed = true

/-- Rule R101: which words are illegal, which opcodes are undefined, and an illegal word's whole effect. -/
def Obligations.IllegalWordsAreExactlyThese : Prop :=
  (∀ w : Word, Illegal w ↔
    (∀ (op : BitVec 8) (row : Word × Word), tableRow op = some row → w &&& row.2 ≠ row.1) ∨
      ((opcodeOf w = 0x05#8 ∨ opcodeOf w = 0x06#8) ∧ w.extractLsb' 16 2 = 3#2) ∨
      ((opcodeOf w = 0x05#8 ∨ opcodeOf w = 0x06#8) ∧ w.extractLsb' 16 2 = 2#2 ∧ (w.extractLsb' 18 2).toNat < 2)) ∧
  (∀ op : BitVec 8, tableRow op = none ↔
    op.toNat = 0x07 ∨ (0x0A ≤ op.toNat ∧ op.toNat ≤ 0x0F) ∨ op.toNat = 0x16 ∨ op.toNat = 0x17 ∨ 0x1B ≤ op.toNat) ∧
  ∀ (w : Word) (s : State) (rest : List Input), Illegal w → s.inputs = .write s.blockBase 4 w :: rest →
    step s = .next { s with inputs := rest, cmdLast := w, code := .illegal, sticky := true }

/-- Words of 95_test_vectors.md decode to the commands they stand for. -/
def Obligations.VectorWordsDecode : Prop :=
  decode 0x00000001#32 = .ok .clrerr ∧ decode 0x00080103#32 = .ok (.setbit 8#16 true) ∧
    decode 0x00010806#32 = .ok (.getnext 8#7 .s .w8) ∧ decode 0x00000009#32 = .ok .framechk ∧
    decode 0x000A4D12#32 = .ok (.attach 1#2 3#4 41#7) ∧ decode 0x0000021A#32 = .ok (.fxper 2#2 0#4)

/-- Rule R105: what each pseudo-instruction stands for, as accesses of a block at `base`; a frame has at most the 65535
bytes that a word of ALLOC can name (rules R92 and R121). -/
def Obligations.PseudoInstructionsExpand : Prop :=
  ∀ (base : Nat),
    (∀ i, expand base (.clrbit i) = [.write base 4 (encode (.setbit i false))]) ∧
    (∀ s l k w, expand base (.getrangeAt s l k w) = [.write (base + 0x08) 4 s, .write base 4 (encode (.getrange l k w))]) ∧
    (∀ b ty a r, expand base (.attachR b ty a r) = [.write (base + 0x08) 4 r, .write base 4 (encode (.attach b ty a))]) ∧
    (∀ v, expand base (.seek v) = [.write (base + 0x20) 4 v]) ∧
    (∀ bytes : List Byte, bytes.length ≤ 65535 → expand base (.frame bytes) =
      .write base 4 (encode (.alloc (BitVec.ofNat 16 bytes.length))) ::
        (List.range bytes.length).map (fun j => .write (base + 0x100 + j) 1 ((bytes.getD j 0#8).setWidth 32))) ∧
    expand base .chk = [.read (base + 0x04) 4]

/-! ### A step -/

/-- Rules R24 and R64: a 4-byte write at CMD whose word decodes runs that command, CMD_LAST set first. -/
def Obligations.StepRunsTheDecodedCommand : Prop :=
  ∀ (s : State) (w : Word) (rest : List Input) (i : Instr),
    s.inputs = .write s.blockBase 4 w :: rest → decode w = .ok i →
    step s = exec i { s with inputs := rest, cmdLast := w }

/-- Rule R24: every word written to CMD is recorded and then read back, whatever its outcome. -/
def Obligations.CmdReadsTheLastWordWritten : Prop :=
  ∀ (s : State) (w : Word) (rest : List Input), s.inputs = .write s.blockBase 4 w :: rest →
    ∃ t, step s = .next t ∧ t.inputs = rest ∧ t.blockBase = s.blockBase ∧ RegisterReads t 0x00 w ∧
      (∀ i, decode w = .ok i → exec i { s with inputs := rest, cmdLast := w } = .next t) ∧
      ((∃ e, decode w = .error e) → t = { s with inputs := rest, cmdLast := w, code := .illegal, sticky := true })

/-- The model's choice (log entry 3): with no input to perform, a step changes nothing. -/
def Obligations.IdleStepChangesNothing : Prop :=
  ∀ s : State, s.inputs = [] → step s = .next s

/-- The model's choice (log entry 5): an access below BLOCK_BASE is not the block's, and stops the model. -/
def Obligations.AccessBelowTheWindowStops : Prop :=
  ∀ (s : State) (addr n : Nat) (v : Word) (rest : List Input), addr < s.blockBase →
    (s.inputs = .read addr n :: rest → step s = .fault (.outsideWindow addr)) ∧
    (s.inputs = .write addr n v :: rest → step s = .fault (.outsideWindow addr))

/-- Rule R250: reset gives every piece of state its value, and leaves the parameters. -/
def Obligations.ResetGivesEveryPieceItsValue : Prop :=
  HasResetValues State.reset.toBlock ∧
    ∀ (s : State) (rest : List Input), s.inputs = .reset :: rest →
      ∃ t, step s = .next t ∧ HasResetValues t.toBlock ∧ t.bufCap = s.bufCap ∧ t.blockBase = s.blockBase

/-- The model's choice (log entry 9): reset leaves the inputs not performed yet and the data of the latest read. -/
def Obligations.ResetLeavesTheHostSide : Prop :=
  ∀ (s t : State) (rest : List Input), s.inputs = .reset :: rest → step s = .next t →
    t.inputs = rest ∧ t.rdata = s.rdata

/-- Rule R250's last paragraph and log entry 3: every step keeps the parameters and takes the next input. -/
def Obligations.StepKeepsTheParameters : Prop :=
  ∀ s t : State, step s = .next t →
    t.bufCap = s.bufCap ∧ t.blockBase = s.blockBase ∧ t.inputs = s.inputs.tail

/-! ### Host accesses -/

/-- Rule R62: reads and writes of the BUF window, their checks in order, their data and their effect. That an access
at or past BUF_CAP is the block's, as rule R62's check says and rule R61 does not, is log entry 5 (DEDUCED); that the
alignment is that of j, log entry 6 (DEDUCED); that any width can be asked for, log entry 12 (DEDUCED); and that the
data of a 1-byte or 2-byte read has zeros above it, log entry 4 (the model's choice). -/
def Obligations.BufferWindowAccess : Prop :=
  ∀ (s : State) (j n : Nat) (v : Word) (rest : List Input),
    (s.inputs = .read (s.blockBase + 0x100 + j) n :: rest →
      ((n ≠ 1 ∧ n ≠ 2 ∧ n ≠ 4) ∨ j % n ≠ 0 ∨ s.bufCap < j + n →
        step s = .next { s with inputs := rest, rdata := 0#32, code := .busacc, sticky := true }) ∧
      ((n = 1 ∨ n = 2 ∨ n = 4) → j % n = 0 → j + n ≤ s.bufCap →
        (s.len.toNat < j + n →
          step s = .next { s with inputs := rest, rdata := 0#32, code := .oob, sticky := true }) ∧
        (j + n ≤ s.len.toNat →
          ∃ d : Word, step s = .next { s with inputs := rest, rdata := d } ∧
            ∀ k < 4, d.extractLsb' (8 * k) 8 = if k < n then Memory.read s.mem (j + k) else 0#8))) ∧
    (s.inputs = .write (s.blockBase + 0x100 + j) n v :: rest →
      ((n ≠ 1 ∧ n ≠ 2 ∧ n ≠ 4) ∨ j % n ≠ 0 ∨ s.bufCap < j + n →
        step s = .next { s with inputs := rest, code := .busacc, sticky := true }) ∧
      ((n = 1 ∨ n = 2 ∨ n = 4) → j % n = 0 → j + n ≤ s.bufCap →
        (s.len.toNat < j + n → step s = .next { s with inputs := rest, code := .oob, sticky := true }) ∧
        (j + n ≤ s.len.toNat →
          ∃ m, step s = .next { s with inputs := rest, mem := m, valid := false } ∧
            ∀ a, Memory.read m a =
              if j ≤ a ∧ a < j + n then v.extractLsb' (8 * (a - j)) 8 else Memory.read s.mem a)))

/-- Rules R63, R64 and R65: the register file's widths and alignment, its writable registers, and its unmapped offsets.
That the alignment is taken on the offset, whatever BLOCK_BASE is, is log entry 6 (DEDUCED).
A write at CMD is `StepRunsTheDecodedCommand` and `IllegalWordsAreExactlyThese`; what each mapped register reads as is
`RegistersReadTheirState` and the statements after it. -/
def Obligations.RegisterFileAccess : Prop :=
  ∀ (s : State) (off n : Nat) (v : Word) (rest : List Input), off < 0x100 →
    (s.inputs = .read (s.blockBase + off) n :: rest → (n ≠ 4 ∨ off % 4 ≠ 0 ∨ off = 0x0C ∨ off = 0x3C) →
      step s = .next { s with inputs := rest, rdata := 0#32, code := .busacc, sticky := true }) ∧
    (s.inputs = .write (s.blockBase + off) n v :: rest →
      ((n ≠ 4 ∨ off % 4 ≠ 0 ∨ (off ≠ 0x00 ∧ off ≠ 0x08 ∧ off ≠ 0x20)) →
        step s = .next { s with inputs := rest, code := .busacc, sticky := true }) ∧
      (n = 4 → off = 0x08 → step s = .next { s with inputs := rest, arg0 := v }) ∧
      (n = 4 → off = 0x20 → step s = .next { s with inputs := rest, cursor := v }))

/-- Rule R22: what the unpacked registers read as, with no side effect (rule R65). -/
def Obligations.RegistersReadTheirState : Prop :=
  ∀ s : State, RegisterReads s 0x00 s.cmdLast ∧ RegisterReads s 0x08 s.arg0 ∧
    (∃ lo hi : Word, RegisterReads s 0x10 lo ∧ RegisterReads s 0x14 hi ∧ hi ++ lo = s.result) ∧
    (∃ v, RegisterReads s 0x18 v ∧ v.toNat = s.len.toNat) ∧ (∃ v, RegisterReads s 0x1C v ∧ v.toNat = s.crc.toNat) ∧
    RegisterReads s 0x20 s.cursor ∧ (∃ v, RegisterReads s 0x2C v ∧ v.toNat = s.ident.toNat) ∧
    (∃ v, RegisterReads s 0x30 v ∧ v.toNat = s.tlen.toNat) ∧
    (s.bufCap < 2 ^ 32 → ∃ v, RegisterReads s 0x38 v ∧ v.toNat = s.bufCap)

/-- Rules R25 and R220: the places of STATUS's fields, the number of each code and of each FRAMECHK outcome, and the
reserved bits. -/
def Obligations.StatusReadsItsFields : Prop :=
  ∀ s : State, ∃ v, RegisterReads s 0x04 v ∧
    v.extractLsb' 0 4 =
      (match s.code with
      | .ok => 0#4
      | .illegal => 1#4
      | .oob => 2#4
      | .badlen => 3#4
      | .locked => 4#4
      | .range => 5#4
      | .duptype => 6#4
      | .dupaddr => 7#4
      | .toolarge => 8#4
      | .notcfg => 9#4
      | .noframe => 10#4
      | .badval => 11#4
      | .busacc => 12#4) ∧
    v.getLsbD 4 = s.sticky ∧ v.getLsbD 5 = s.valid ∧ v.getLsbD 6 = s.disc ∧ v.getLsbD 7 = s.crcok ∧
    v.getLsbD 8 = s.lock ∧
    v.extractLsb' 9 2 =
      (match s.fres with
      | .unchecked => 0#2
      | .pass => 1#2
      | .identityFail => 2#2
      | .checksumFail => 3#2) ∧
    v.extractLsb' 11 21 = 0#21

/-- Rules R31, R32 and R39: channel c is CHMODE[2c-1:2c-2] and encoder e is ENCMODE[2e-1:2e-2], each as the number of
its mode, and no other bit reads as 1; no code is 3. -/
def Obligations.ModeRegistersReadTheirCodes : Prop :=
  ∀ s : State,
    (∃ v, RegisterReads s 0x24 v ∧ v.extractLsb' 24 8 = 0#8 ∧
      ∀ c : Fin 12, v.extractLsb' (2 * c.val) 2 ≠ 3#2 ∧
        v.extractLsb' (2 * c.val) 2 = (match s.chmode[c] with | .off => 0#2 | .analog => 1#2 | .digital => 2#2)) ∧
    ∃ v, RegisterReads s 0x28 v ∧ v.extractLsb' 12 20 = 0#20 ∧
      ∀ e : Fin 6, v.extractLsb' (2 * e.val) 2 ≠ 3#2 ∧
        v.extractLsb' (2 * e.val) 2 = (match s.encmode[e] with | .off => 0#2 | .quadrature => 1#2 | .pwm => 2#2)

/-- Rules R35 and R37: the fields of PTAB and PCOUNT, in a state whose buses hold at most 16 peripherals each. -/
def Obligations.PeripheralRegistersReadTheirEntries : Prop :=
  ∀ s : State, (∀ b : Fin 3, s.pcount b ≤ 16) →
    (∀ (b : Fin 3) (slot : Fin 16),
      (∀ p, s.ptab[b][slot.val]? = some p →
        ∃ v, RegisterReads s (0x40 + 4 * (16 * b.val + slot.val)) v ∧ v.getLsbD 0 = true ∧ v.extractLsb' 1 4 = p.type ∧
          v.extractLsb' 5 7 = p.addr ∧ v.extractLsb' 12 4 = 0#4 ∧ v.extractLsb' 16 16 = p.rlen) ∧
      (s.pcount b ≤ slot.val → RegisterReads s (0x40 + 4 * (16 * b.val + slot.val)) 0#32)) ∧
    ∃ v, RegisterReads s 0x34 v ∧
      (∀ b : Fin 3, (v.extractLsb' (8 * b.val) 5).toNat = s.pcount b ∧ v.extractLsb' (8 * b.val + 5) 3 = 0#3) ∧
      v.extractLsb' 24 8 = 0#8

/-- Rule R67: a window read at byte j is the range from bit 8j, and an n-byte field written through the window reads back
by GETRANGE with start 8j, length 8n and kind U. The alignment is that of j (log entry 6, DEDUCED), and the zeros above
a short read's data are log entry 4 (the model's choice). -/
def Obligations.WindowAndBitSpaceAgree : Prop :=
  ∀ (s : State) (j n : Nat) (v : Word) (rest : List Input), (n = 1 ∨ n = 2 ∨ n = 4) → j % n = 0 → j + n ≤ s.bufCap →
    j + n ≤ s.len.toNat →
    (s.inputs = .read (s.blockBase + 0x100 + j) n :: rest →
      ∃ d : Word, step s = .next { s with inputs := rest, rdata := d } ∧ d.toNat = Memory.raw s.mem (8 * j) (8 * n)) ∧
    (s.inputs = .write (s.blockBase + 0x100 + j) n v :: rest →
      ∃ t, step s = .next t ∧
        ∀ w : Width, 8 * n ≤ widthBits w →
          ∃ u, exec (.getrange (BitVec.ofNat 7 (8 * n)) .u w) { t with arg0 := BitVec.ofNat 32 (8 * j) } = .next u ∧
            u.code = .ok ∧ u.result.toNat = v.toNat % 2 ^ (8 * n))

/-! ### Control and BitBuffer commands -/

/-- Rules R210 and R211: NOP writes CODE alone, CLRERR writes CODE and STICKY, and a nonzero bit above the opcode is
illegal. Here and below, the first clause of a command's statement, or the last one, reads its words. -/
def Obligations.ControlCommands : Prop :=
  (∀ s : State, exec .nop s = .next { s with code := .ok }) ∧
    (∀ s : State, exec .clrerr s = .next { s with code := .ok, sticky := false }) ∧
    ∀ w : Word, (opcodeOf w = 0x00#8 → Encodes w (w.extractLsb' 8 24 = 0#24) .nop) ∧
      (opcodeOf w = 0x01#8 → Encodes w (w.extractLsb' 8 24 = 0#24) .clrerr)

/-- Rule R121. -/
def Obligations.AllocClearsTheBuffer : Prop :=
  (∀ w : Word, opcodeOf w = 0x02#8 → Encodes w (w.extractLsb' 8 8 = 0#8) (.alloc (w.extractLsb' 16 16))) ∧
  ∀ (n : BitVec 16) (s : State),
    (s.bufCap < n.toNat → FailsWith (.alloc n) s .oob) ∧
    (n.toNat ≤ s.bufCap →
      ∃ m, exec (.alloc n) s =
          .next { s with len := n, mem := m, cursor := 0#32, valid := false, crcok := false, code := .ok } ∧
        ∀ j, Memory.read m j = 0x00#8)

/-- Rule R122: bit i takes the value, and every other bit, so every byte but i / 8, reads as before. -/
def Obligations.SetbitWritesOneBit : Prop :=
  (∀ w : Word, opcodeOf w = 0x03#8 → Encodes w (w.extractLsb' 9 7 = 0#7) (.setbit (w.extractLsb' 16 16) (w.getLsbD 8))) ∧
  ∀ (i : BitVec 16) (v : Bool) (s : State),
    (8 * s.len.toNat ≤ i.toNat → FailsWith (.setbit i v) s .oob) ∧
    (i.toNat < 8 * s.len.toNat →
      ∃ m, exec (.setbit i v) s = .next { s with mem := m, valid := false, code := .ok } ∧
        (∀ k, Memory.bit m k = if k = i.toNat then v else Memory.bit s.mem k) ∧
        ∀ a, a ≠ i.toNat / 8 → Memory.read m a = Memory.read s.mem a)

/-- Rule R123. -/
def Obligations.GetbitReadsOneBit : Prop :=
  (∀ w : Word, opcodeOf w = 0x04#8 → Encodes w (w.extractLsb' 8 8 = 0#8) (.getbit (w.extractLsb' 16 16))) ∧
  ∀ (i : BitVec 16) (s : State),
    (8 * s.len.toNat ≤ i.toNat → FailsWith (.getbit i) s .oob) ∧
    (i.toNat < 8 * s.len.toNat →
      exec (.getbit i) s =
        .next { s with result := (if Memory.bit s.mem i.toNat then 1#64 else 0#64), code := .ok })

/-- Rules R120 and R124: RESULT bit by bit, the checks in order, and nothing else changed. A kind F
narrower than 32 bits fails the rule's first check. -/
def Obligations.GetrangeExtractsFromArg0 : Prop :=
  (∀ w : Word, opcodeOf w = 0x05#8 → EncodesRange w .getrange) ∧
  ∀ (l : BitVec 7) (k : Kind) (w : Width) (s : State),
    ((Instr.getrange l k w).wellFormed = false → FailsWith (.getrange l k w) s .illegal) ∧
    ((Instr.getrange l k w).wellFormed = true →
      (widthBits w < l.toNat → FailsWith (.getrange l k w) s .badlen) ∧
      (l.toNat ≤ widthBits w → 8 * s.len.toNat < s.arg0.toNat + l.toNat → FailsWith (.getrange l k w) s .oob) ∧
      (l.toNat ≤ widthBits w → s.arg0.toNat + l.toNat ≤ 8 * s.len.toNat →
        ∃ r : BitVec 64, exec (.getrange l k w) s = .next { s with result := r, code := .ok } ∧
          ∀ j < 64, r.getLsbD j = rangeBit s.mem s.arg0.toNat l.toNat k (widthBits w) j))

/-- Rules R120 and R125: as GETRANGE from CURSOR, which moves past the range and never wraps. A kind F
narrower than 32 bits fails the rule's first check. -/
def Obligations.GetnextExtractsFromCursor : Prop :=
  (∀ w : Word, opcodeOf w = 0x06#8 → EncodesRange w .getnext) ∧
  ∀ (l : BitVec 7) (k : Kind) (w : Width) (s : State),
    ((Instr.getnext l k w).wellFormed = false → FailsWith (.getnext l k w) s .illegal) ∧
    ((Instr.getnext l k w).wellFormed = true →
      (widthBits w < l.toNat → FailsWith (.getnext l k w) s .badlen) ∧
      (l.toNat ≤ widthBits w → 8 * s.len.toNat < s.cursor.toNat + l.toNat → FailsWith (.getnext l k w) s .oob) ∧
      (l.toNat ≤ widthBits w → s.cursor.toNat + l.toNat ≤ 8 * s.len.toNat →
        ∃ (r : BitVec 64) (c : Word), exec (.getnext l k w) s = .next { s with result := r, cursor := c, code := .ok } ∧
          c.toNat = s.cursor.toNat + l.toNat ∧
          ∀ j < 64, r.getLsbD j = rangeBit s.mem s.cursor.toNat l.toNat k (widthBits w) j))

/-! ### Checksum commands -/

/-- Rule R142, over the payload and the big-endian trailer of rule R141. -/
def Obligations.CrcgenComputesTheChecksum : Prop :=
  (∀ w : Word, opcodeOf w = 0x08#8 → Encodes w (w.extractLsb' 8 24 = 0#24) .crcgen) ∧
  ∀ s : State,
    (s.len.toNat < 2 → FailsWith .crcgen s .badlen) ∧
    (2 ≤ s.len.toNat →
      ∃ (c : BitVec 16) (ok : Bool), exec .crcgen s = .next { s with crc := c, crcok := ok, code := .ok } ∧
        c = crc16 ((List.range (s.len.toNat - 2)).map (fun j => Memory.read s.mem j)) ∧
        (ok = true ↔ c = Memory.read s.mem (s.len.toNat - 2) ++ Memory.read s.mem (s.len.toNat - 1)))

/-- Rule R143: the four outcomes, each with everything it changes. -/
def Obligations.FramechkGatesTheFrame : Prop :=
  (∀ w : Word, opcodeOf w = 0x09#8 → Encodes w (w.extractLsb' 8 24 = 0#24) .framechk) ∧
  ∀ s : State,
    (s.len.toNat = 0 ∨ Memory.read s.mem 0 ≠ s.ident →
      exec .framechk s = .next { s with disc := true, valid := false, fres := .identityFail, code := .ok }) ∧
    (s.len.toNat = 1 → Memory.read s.mem 0 = s.ident →
      exec .framechk s = .next { s with valid := false, crcok := false, fres := .checksumFail, code := .ok }) ∧
    (2 ≤ s.len.toNat → Memory.read s.mem 0 = s.ident →
      ∀ c, c = crc16 ((List.range (s.len.toNat - 2)).map (fun j => Memory.read s.mem j)) →
        (c = Memory.read s.mem (s.len.toNat - 2) ++ Memory.read s.mem (s.len.toNat - 1) →
          exec .framechk s =
            .next { s with crc := c, crcok := true, valid := true, disc := false, fres := .pass, code := .ok }) ∧
        (c ≠ Memory.read s.mem (s.len.toNat - 2) ++ Memory.read s.mem (s.len.toNat - 1) →
          exec .framechk s =
            .next { s with crc := c, crcok := false, valid := false, fres := .checksumFail, code := .ok }))

/-- The CRC of rule R140 is the remainder of the message, 16 zero bits appended, on long division by the polynomial. -/
def Obligations.CrcIsTheDivisionRemainder : Prop :=
  ∀ d : List Byte, crc16 d = divideBits 0x0000#16 (d.flatMap byteBits ++ List.replicate 16 false)

/-- Rule R145: a frame that ends in its payload's checksum validates, and any one flipped bit of it, in the payload or in
the trailer, makes validation fail. -/
def Obligations.ChecksumRoundTripAndSingleBitDetection : Prop :=
  (∀ (s : State) (p : List Byte), s.len.toNat = p.length + 2 →
    (∀ j, j < p.length → Memory.read s.mem j = p.getD j 0#8) →
    Memory.read s.mem p.length = (crc16 p).extractLsb' 8 8 →
    Memory.read s.mem (p.length + 1) = (crc16 p).extractLsb' 0 8 →
    ∃ t, exec .crcgen s = .next t ∧ t.code = .ok ∧ t.crcok = true) ∧
  ∀ (s t : State) (i : BitVec 16), exec .crcgen s = .next t → t.code = .ok → t.crcok = true →
    i.toNat < 8 * s.len.toNat →
    ∃ u v, exec (.setbit i (!(Memory.bit s.mem i.toNat))) t = .next u ∧ exec .crcgen u = .next v ∧
      u.code = .ok ∧ v.code = .ok ∧ v.crcok = false

/-- Rule R253: with IDENT = 0x00, an all-zero buffer of any LEN ≥ 2 passes FRAMECHK. -/
def Obligations.AllZeroFramePassesWithZeroIdent : Prop :=
  ∀ s : State, s.ident = 0x00#8 → 2 ≤ s.len.toNat → (∀ j, j < s.len.toNat → Memory.read s.mem j = 0x00#8) →
    exec .framechk s =
      .next { s with crc := 0x0000#16, crcok := true, valid := true, disc := false, fres := .pass, code := .ok }

/-! ### Layout configuration commands -/

/-- Rule R160: the fields follow each other without a gap: the identity byte, channels 1 to 12, encoders 1 to 6, and the
peripherals of buses 1 to 3 in slot order. -/
def Obligations.LayoutFieldsAreContiguous : Prop :=
  ∀ s : State, s.chStart 1 = 8 ∧
    (∀ c : Fin 12, s.chStart (c.val + 2) = s.chStart (c.val + 1) +
      (match s.chmode[c] with | .analog => 12 | .digital => 1 | .off => 0)) ∧
    s.encStart 1 = s.chStart 13 ∧
    (∀ e : Fin 6, s.encStart (e.val + 2) = s.encStart (e.val + 1) + (if s.encmode[e] = .off then 0 else 48)) ∧
    s.pStart 0 0 = s.encStart 7 ∧
    (∀ (b : Fin 3) (slot : Nat) (p : Peripheral), s.ptab[b][slot]? = some p →
      s.pStart b (slot + 1) = s.pStart b slot + p.rlen.toNat) ∧
    s.pStart 1 0 = s.pStart 0 (s.pcount 0) ∧ s.pStart 2 0 = s.pStart 1 (s.pcount 1) ∧
    s.payloadBits = s.pStart 2 (s.pcount 2)

/-- Rule R161: the telemetry frame length from the numbers of analog and digital channels, active encoders, and reply
bits; its least value; and the fixed part of the largest configuration. -/
def Obligations.TelemetryLengthFormula : Prop :=
  ∀ s : State,
    s.payloadBits = 8 + 12 * s.chmode.toList.count .analog + s.chmode.toList.count .digital +
      48 * (6 - s.encmode.toList.count .off) + ((s.ptab.toList.flatten).map (fun p => p.rlen.toNat)).sum ∧
    8 * (s.layoutTlen - 2) < s.payloadBits + 8 ∧ s.payloadBits ≤ 8 * (s.layoutTlen - 2) ∧ 3 ≤ s.layoutTlen ∧
    ((∀ c : Fin 12, s.chmode[c] = .off) → (∀ e : Fin 6, s.encmode[e] = .off) → (∀ b : Fin 3, s.ptab[b] = []) →
      s.layoutTlen = 3) ∧
    ((∀ c : Fin 12, s.chmode[c] = .analog) → (∀ e : Fin 6, s.encmode[e] ≠ .off) →
      s.encStart 7 = 440 ∧ ((∀ b : Fin 3, s.ptab[b] = []) → s.layoutTlen = 57))

/-- Rule R162, with the mode codes of rule R39. -/
def Obligations.SetchSetsOneMode : Prop :=
  (∀ w : Word, opcodeOf w = 0x10#8 → Encodes w (w.extractLsb' 14 18 = 0#18) (.setch (w.extractLsb' 8 4) (w.extractLsb' 12 2))) ∧
  ∀ (c : BitVec 4) (m : BitVec 2) (s : State),
    (s.lock = true → FailsWith (.setch c m) s .locked) ∧
    (s.lock = false → c.toNat < 1 ∨ 12 < c.toNat → FailsWith (.setch c m) s .range) ∧
    (s.lock = false → 1 ≤ c.toNat → c.toNat ≤ 12 → m = 3#2 → FailsWith (.setch c m) s .badval) ∧
    (s.lock = false → 1 ≤ c.toNat → c.toNat ≤ 12 → m ≠ 3#2 →
      ∃ v, exec (.setch c m) s = .next { s with chmode := v, code := .ok } ∧
        (∀ k : Fin 12, k.val + 1 ≠ c.toNat → v[k] = s.chmode[k]) ∧
        ∀ k : Fin 12, k.val + 1 = c.toNat →
          (m = 0#2 → v[k] = .off) ∧ (m = 1#2 → v[k] = .analog) ∧ (m = 2#2 → v[k] = .digital))

/-- Rule R163, with the mode codes of rule R39. -/
def Obligations.SetencSetsOneMode : Prop :=
  (∀ w : Word, opcodeOf w = 0x11#8 → Encodes w (w.extractLsb' 14 18 = 0#18) (.setenc (w.extractLsb' 8 4) (w.extractLsb' 12 2))) ∧
  ∀ (e : BitVec 4) (m : BitVec 2) (s : State),
    (s.lock = true → FailsWith (.setenc e m) s .locked) ∧
    (s.lock = false → e.toNat < 1 ∨ 6 < e.toNat → FailsWith (.setenc e m) s .range) ∧
    (s.lock = false → 1 ≤ e.toNat → e.toNat ≤ 6 → m = 3#2 → FailsWith (.setenc e m) s .badval) ∧
    (s.lock = false → 1 ≤ e.toNat → e.toNat ≤ 6 → m ≠ 3#2 →
      ∃ v, exec (.setenc e m) s = .next { s with encmode := v, code := .ok } ∧
        (∀ k : Fin 6, k.val + 1 ≠ e.toNat → v[k] = s.encmode[k]) ∧
        ∀ k : Fin 6, k.val + 1 = e.toNat →
          (m = 0#2 → v[k] = .off) ∧ (m = 1#2 → v[k] = .quadrature) ∧ (m = 2#2 → v[k] = .pwm))

/-- Rule R164. The list of a bus is its valid slots in order, so one more descriptor is PTAB[b][n] and PCOUNT[b] = n + 1
(log entry 7). -/
def Obligations.AttachAppendsADescriptor : Prop :=
  (∀ w : Word, opcodeOf w = 0x12#8 →
    Encodes w (w.extractLsb' 21 11 = 0#11) (.attach (w.extractLsb' 8 2) (w.extractLsb' 10 4) (w.extractLsb' 14 7))) ∧
  ∀ (b : BitVec 2) (t : BitVec 4) (a : BitVec 7) (s : State),
    (s.lock = true → FailsWith (.attach b t a) s .locked) ∧
    (s.lock = false → b = 0#2 → FailsWith (.attach b t a) s .range) ∧
    ∀ k : Fin 3, s.lock = false → b.toNat = k.val + 1 →
      (s.arg0.toNat = 0 ∨ 0xFFFF < s.arg0.toNat → FailsWith (.attach b t a) s .badval) ∧
      (0 < s.arg0.toNat → s.arg0.toNat ≤ 0xFFFF →
        ((∃ p ∈ s.ptab[k], p.type = t) → FailsWith (.attach b t a) s .duptype) ∧
        ((∀ p ∈ s.ptab[k], p.type ≠ t) → (∃ p ∈ s.ptab[k], p.addr = a) → FailsWith (.attach b t a) s .dupaddr) ∧
        ((∀ p ∈ s.ptab[k], p.type ≠ t) → (∀ p ∈ s.ptab[k], p.addr ≠ a) →
          ∃ (v : Vector (List Peripheral) 3) (r : BitVec 16),
            exec (.attach b t a) s = .next { s with ptab := v, code := .ok } ∧ r.toNat = s.arg0.toNat ∧
            ∀ k' : Fin 3, v[k'] = if k' = k then s.ptab[k] ++ [Peripheral.mk t a r] else s.ptab[k']))

/-- Rule R164, corner cases: on a bus with 16 peripherals every further ATTACH raises DUPTYPE. -/
def Obligations.SeventeenthAttachRaisesDuptype : Prop :=
  ∀ (b : BitVec 2) (t : BitVec 4) (a : BitVec 7) (s : State) (k : Fin 3), Invariant s → s.lock = false →
    b.toNat = k.val + 1 → 0 < s.arg0.toNat → s.arg0.toNat ≤ 0xFFFF → s.pcount k = 16 →
    FailsWith (.attach b t a) s .duptype

/-- Rule R165. -/
def Obligations.SetidProgramsTheIdentity : Prop :=
  (∀ w : Word, opcodeOf w = 0x13#8 → Encodes w (w.extractLsb' 16 16 = 0#16) (.setid (w.extractLsb' 8 8))) ∧
  ∀ (x : BitVec 8) (s : State), exec (.setid x) s = .next { s with ident := x, valid := false, code := .ok }

/-- Rule R166. -/
def Obligations.LayoutLocksTheConfiguration : Prop :=
  (∀ w : Word, opcodeOf w = 0x14#8 → Encodes w (w.extractLsb' 8 24 = 0#24) .layout) ∧
  ∀ s : State,
    (100 < s.layoutTlen → FailsWith .layout s .toolarge) ∧
    (s.layoutTlen ≤ 100 →
      ∃ n : BitVec 7, n.toNat = s.layoutTlen ∧
        exec .layout s =
          .next { s with tlen := n, lock := true, valid := false, disc := false, fres := .unchecked, code := .ok })

/-- Rule R167. -/
def Obligations.CfgclrEmptiesTheConfiguration : Prop :=
  (∀ w : Word, opcodeOf w = 0x15#8 → Encodes w (w.extractLsb' 8 24 = 0#24) .cfgclr) ∧
  ∀ s : State, ∃ (cs : Vector ChMode 12) (es : Vector EncMode 6) (ps : Vector (List Peripheral) 3),
    exec .cfgclr s =
      .next { s with chmode := cs, encmode := es, ptab := ps, tlen := 0#7, lock := false, valid := false, code := .ok } ∧
    (∀ c : Fin 12, cs[c] = .off) ∧ (∀ e : Fin 6, es[e] = .off) ∧ ∀ b : Fin 3, ps[b] = []

/-! ### Field extraction commands -/

/-- Rule R191. -/
def Obligations.FxchReadsTheChannelField : Prop :=
  (∀ w : Word, opcodeOf w = 0x18#8 → Encodes w (w.extractLsb' 12 20 = 0#20) (.fxch (w.extractLsb' 8 4))) ∧
  ∀ (c : BitVec 4) (s : State),
    (c.toNat < 1 ∨ 12 < c.toNat → FailsWith (.fxch c) s .range) ∧
    ∀ k : Fin 12, c.toNat = k.val + 1 →
      (s.lock = false ∨ s.chmode[k] = .off → FailsWith (.fxch c) s .notcfg) ∧
      (s.lock = true → s.chmode[k] ≠ .off → s.valid = false → FailsWith (.fxch c) s .noframe) ∧
      (s.lock = true → s.chmode[k] ≠ .off → s.valid = true →
        ∀ width, width = (if s.chmode[k] = .analog then 12 else 1) →
          (8 * s.len.toNat < s.chStart c.toNat + width → FailsWith (.fxch c) s .oob) ∧
          (s.chStart c.toNat + width ≤ 8 * s.len.toNat →
            ∃ (r : BitVec 64) (u : Word),
              exec (.fxch c) s = .next { s with result := r, cursor := u, code := .ok } ∧
              u.toNat = s.chStart c.toNat + width ∧
              ∀ j < 64, r.getLsbD j = (decide (j < width) && Memory.bit s.mem (s.chStart c.toNat + j))))

/-- Rule R192: both parts are signed at their full width. -/
def Obligations.FxencReadsTheEncoderField : Prop :=
  (∀ w : Word, opcodeOf w = 0x19#8 →
    Encodes w (w.extractLsb' 13 19 = 0#19) (.fxenc (w.extractLsb' 8 4) (if w.getLsbD 12 then .vel else .pos))) ∧
  ∀ (e : BitVec 4) (p : EncPart) (s : State),
    (e.toNat < 1 ∨ 6 < e.toNat → FailsWith (.fxenc e p) s .range) ∧
    ∀ k : Fin 6, e.toNat = k.val + 1 →
      (s.lock = false ∨ s.encmode[k] = .off → FailsWith (.fxenc e p) s .notcfg) ∧
      (s.lock = true → s.encmode[k] ≠ .off → s.valid = false → FailsWith (.fxenc e p) s .noframe) ∧
      (s.lock = true → s.encmode[k] ≠ .off → s.valid = true →
        ∀ start width, start = s.encStart e.toNat + (if p = .pos then 0 else 16) →
          width = (if p = .pos then 16 else 32) →
          (8 * s.len.toNat < start + width → FailsWith (.fxenc e p) s .oob) ∧
          (start + width ≤ 8 * s.len.toNat →
            ∃ (r : BitVec 64) (u : Word),
              exec (.fxenc e p) s = .next { s with result := r, cursor := u, code := .ok } ∧
              u.toNat = start + width ∧
              ∀ j < 64, r.getLsbD j = Memory.bit s.mem (start + min j (width - 1))))

/-- Rule R194: RESULT holds the start, RLEN and the disconnect flag, and CURSOR the start. -/
def Obligations.FxperLocatesTheReply : Prop :=
  (∀ w : Word, opcodeOf w = 0x1A#8 → Encodes w (w.extractLsb' 14 18 = 0#18) (.fxper (w.extractLsb' 8 2) (w.extractLsb' 10 4))) ∧
  ∀ (b : BitVec 2) (slot : BitVec 4) (s : State),
    (b = 0#2 → FailsWith (.fxper b slot) s .range) ∧
    ∀ k : Fin 3, b.toNat = k.val + 1 →
      (s.lock = false ∨ s.pcount k ≤ slot.toNat → FailsWith (.fxper b slot) s .notcfg) ∧
      ∀ p, s.ptab[k][slot.toNat]? = some p → s.lock = true →
        (s.valid = false → FailsWith (.fxper b slot) s .noframe) ∧
        (s.valid = true → 8 * s.len.toNat < s.pStart k slot.toNat + p.rlen.toNat →
          FailsWith (.fxper b slot) s .oob) ∧
        (s.valid = true → s.pStart k slot.toNat + p.rlen.toNat ≤ 8 * s.len.toNat →
          ∃ (r : BitVec 64) (u : Word),
            exec (.fxper b slot) s = .next { s with result := r, cursor := u, code := .ok } ∧
            u.toNat = s.pStart k slot.toNat ∧ (r.extractLsb' 0 32).toNat = s.pStart k slot.toNat ∧
            r.extractLsb' 32 16 = p.rlen ∧ r.getLsbD 48 = Memory.bit s.mem (s.pStart k slot.toNat) ∧
            r.extractLsb' 49 15 = 0#15)

/-- Rule R190: when LEN is the planned frame length, no field command raises OOB, and each one whose channel, encoder or
slot is configured completes on a valid frame. -/
def Obligations.FieldsLieWithinThePlannedFrame : Prop :=
  ∀ s : State, Invariant s → s.len.toNat = s.tlen.toNat →
    (∀ i t, isFieldCommand i = true → exec i s = .next t → t.code ≠ .oob) ∧
    (s.lock = true → s.valid = true →
      (∀ (c : BitVec 4) (k : Fin 12), c.toNat = k.val + 1 → s.chmode[k] ≠ .off →
        ∃ t, exec (.fxch c) s = .next t ∧ t.code = .ok ∧ t.cursor.toNat ≤ s.payloadBits) ∧
      (∀ (e : BitVec 4) (p : EncPart) (k : Fin 6), e.toNat = k.val + 1 → s.encmode[k] ≠ .off →
        ∃ t, exec (.fxenc e p) s = .next t ∧ t.code = .ok ∧ t.cursor.toNat ≤ s.payloadBits) ∧
      ∀ (b : BitVec 2) (slot : BitVec 4) (k : Fin 3), b.toNat = k.val + 1 → slot.toNat < s.pcount k →
        ∃ t, exec (.fxper b slot) s = .next t ∧ t.code = .ok ∧ t.cursor.toNat < s.payloadBits)

/-- Rule R144: with no validated frame every field command fails, so none takes a value from a discarded frame. -/
def Obligations.FieldCommandsNeedAValidFrame : Prop :=
  ∀ (i : Instr) (s : State), isFieldCommand i = true → s.valid = false →
    FailsWith i s .range ∨ FailsWith i s .notcfg ∨ FailsWith i s .noframe

/-! ### Rules of the whole machine -/

/-- Rules R221 and R226: every command answers a next state, and one that fails has changed CODE and STICKY alone. -/
def Obligations.FailedCommandsRecordOnlyTheError : Prop :=
  ∀ (i : Instr) (s : State), ∃ t, exec i s = .next t ∧
    (t.code ≠ .ok → t = { s with code := t.code, sticky := true }) ∧
    (t.code = .ok → i ≠ .clrerr → t.sticky = s.sticky)

/-- Rule R220: a well-formed command ends with OK or with a code the table lists for it. -/
def Obligations.CommandsRaiseOnlyTheirListedCodes : Prop :=
  ∀ (i : Instr) (s t : State), i.wellFormed = true → exec i s = .next t → t.code ∈ codesOf i

/-- Rule R227: a command's outcome does not depend on the errors recorded before it, and STICKY stays 1 until CLRERR. -/
def Obligations.CommandsIgnoreEarlierErrors : Prop :=
  ∀ (i : Instr) (s t : State) (c : Code) (b : Bool), exec i s = .next t →
    exec i { s with code := c, sticky := b } =
      .next { t with sticky := (if t.code ≠ .ok then true else if i = .clrerr then false else b) }

/-- Rule R228: STICKY is cleared by CLRERR and reset alone. -/
def Obligations.StickyIsClearedOnlyByClrerrOrReset : Prop :=
  ∀ s t : State, s.sticky = true → step s = .next t → t.sticky = false →
    ∃ rest, s.inputs = .reset :: rest ∨ s.inputs = .write s.blockBase 4 0x00000001#32 :: rest

/-- Rule R168: while LOCK = 1 the configuration and the layout it gives are constant, its commands raise LOCKED, and only
CFGCLR and reset end the lock. -/
def Obligations.LockedConfigurationIsFrozen : Prop :=
  ∀ s : State, Invariant s → s.lock = true →
    (∀ c m, FailsWith (.setch c m) s .locked) ∧ (∀ e m, FailsWith (.setenc e m) s .locked) ∧
    (∀ b ty a, FailsWith (.attach b ty a) s .locked) ∧
    ∀ t, step s = .next t →
      (t.lock = true ∧ t.chmode = s.chmode ∧ t.encmode = s.encmode ∧ t.ptab = s.ptab ∧ t.tlen = s.tlen) ∨
      (t.lock = false ∧
        ∃ rest, s.inputs = .reset :: rest ∨ s.inputs = .write s.blockBase 4 0x00000015#32 :: rest)

/-- Rules R25, R144 and R254: VALID is set only by a FRAMECHK whose frame passes, and a step that leaves VALID at 1 has
changed neither the buffer, nor LEN, nor IDENT, nor the lock, nor TLEN. -/
def Obligations.ValidMeansACheckedUnchangedFrame : Prop :=
  ∀ s t : State, step s = .next t → t.valid = true →
    (t.mem = s.mem ∧ t.len = s.len ∧ t.ident = s.ident ∧ t.lock = s.lock ∧ t.tlen = s.tlen) ∧
    (s.valid = false →
      (∃ rest, s.inputs = .write s.blockBase 4 0x00000009#32 :: rest) ∧ 2 ≤ s.len.toNat ∧
        Memory.read s.mem 0 = s.ident ∧ crc16 s.payload = s.trailer)

/-- Rules R25, R143 and C8: DISC is set only by a FRAMECHK whose identity byte fails, and cleared only by a FRAMECHK that
passes, by LAYOUT and by reset. -/
def Obligations.DiscFollowsTheIdentityByte : Prop :=
  ∀ s t : State, step s = .next t →
    (s.disc = false → t.disc = true →
      (∃ rest, s.inputs = .write s.blockBase 4 0x00000009#32 :: rest) ∧
        (s.len.toNat = 0 ∨ Memory.read s.mem 0 ≠ s.ident)) ∧
    (s.disc = true → t.disc = false →
      ∃ rest, s.inputs = .reset :: rest ∨ s.inputs = .write s.blockBase 4 0x00000014#32 :: rest ∨
        (s.inputs = .write s.blockBase 4 0x00000009#32 :: rest ∧ t.fres = .pass))

/-- Rules R23 to R34, R37 and R38: which commands write each register and each field of STATUS; CODE is written by
every command. -/
def Obligations.OnlyNamedCommandsWriteEachRegister : Prop :=
  ∀ (i : Instr) (s t : State), exec i s = .next t →
    t.arg0 = s.arg0 ∧ t.cmdLast = s.cmdLast ∧
    (t.result ≠ s.result → writesResult i = true ∧ t.code = .ok) ∧
    (t.cursor ≠ s.cursor → (∃ n, i = .alloc n) ∨ (∃ l k w, i = .getnext l k w) ∨ isFieldCommand i = true) ∧
    (t.len ≠ s.len → ∃ n, i = .alloc n ∧ t.len = n) ∧
    (t.mem ≠ s.mem → (∃ n, i = .alloc n) ∨ ∃ j v, i = .setbit j v) ∧
    (t.crc ≠ s.crc → i = .crcgen ∨ i = .framechk) ∧
    (t.sticky ≠ s.sticky → i = .clrerr ∨ t.code ≠ .ok) ∧
    (t.valid ≠ s.valid → i = .framechk ∨ (∃ n, i = .alloc n) ∨ (∃ j v, i = .setbit j v) ∨ (∃ x, i = .setid x) ∨
      i = .layout ∨ i = .cfgclr) ∧
    (t.disc ≠ s.disc → i = .framechk ∨ i = .layout) ∧
    (t.crcok ≠ s.crcok → i = .crcgen ∨ i = .framechk ∨ ∃ n, i = .alloc n) ∧
    (t.fres ≠ s.fres → i = .framechk ∨ i = .layout) ∧
    (t.lock ≠ s.lock → i = .layout ∨ i = .cfgclr) ∧
    (t.chmode ≠ s.chmode → (∃ c m, i = .setch c m) ∨ i = .cfgclr) ∧
    (t.encmode ≠ s.encmode → (∃ e m, i = .setenc e m) ∨ i = .cfgclr) ∧
    (t.ptab ≠ s.ptab → (∃ b ty a, i = .attach b ty a) ∨ i = .cfgclr) ∧
    (t.ident ≠ s.ident → ∃ x, i = .setid x ∧ t.ident = x) ∧
    (t.tlen ≠ s.tlen → i = .layout ∨ i = .cfgclr)

/-- The invariants hold at reset. -/
def Obligations.InvariantsHoldAtReset : Prop :=
  Invariant State.reset ∧ MemoryOk State.reset ∧ StatusOk State.reset

/-- Rule R40: every step keeps the invariants. -/
def Obligations.EveryStepKeepsTheInvariant : Prop :=
  ∀ s t : State, Invariant s → step s = .next t → Invariant t

/-- The model's memory (rule R38, log entry 10): every step keeps the canonical form and lists nothing at or above
LEN. -/
def Obligations.EveryStepKeepsTheMemoryCanonical : Prop :=
  ∀ s t : State, MemoryOk s → step s = .next t → MemoryOk t

/-- Rules R25 and R221: every step keeps STICKY set beside a recorded error, and VALID with a FRAMECHK that passed. -/
def Obligations.EveryStepKeepsTheStatusConsistent : Prop :=
  ∀ s t : State, Invariant s → StatusOk s → step s = .next t → StatusOk t

/-! ### The assembler -/

/-- The model's choice (log entry 15): a frame of more than 65535 bytes, for which no word of ALLOC stands, expands to
ALLOC of its length modulo 2^16 and all of its byte writes. -/
def Obligations.OverlongFrameExpands : Prop :=
  ∀ (base : Nat) (bytes : List Byte), 65535 < bytes.length →
    ∃ n : BitVec 16, n.toNat = bytes.length % 65536 ∧
      expand base (.frame bytes) = .write base 4 (encode (.alloc n)) ::
        (List.range bytes.length).map (fun j => .write (base + 0x100 + j) 1 ((bytes.getD j 0#8).setWidth 32))
end

