-- ==== Sys2Proof/Laws/Encoding.lean ====
section
/-! SUPPORT. The fields of an encoded word: what each format puts at each place (rules R91 to R98), and what its row's mask
leaves (rule R99). -/

namespace Sys2Proof

@[simp] theorem formatN_opcode (op : BitVec 8) :
    opcodeOf (formatN op) = op := by
  refine BitVec.eq_of_getLsbD_eq fun j hj => ?_
  simp only [opcodeOf, formatN, BitVec.getLsbD_extractLsb', BitVec.getLsbD_append]
  interval_cases j <;> simp

theorem formatN_mask (op : BitVec 8) :
    formatN op &&& 0xFFFFFFFF#32 = op.setWidth 32 := by
  refine BitVec.eq_of_getLsbD_eq fun j hj => ?_
  simp only [formatN, BitVec.getLsbD_and, BitVec.getLsbD_append]
  interval_cases j <;> simp

@[simp] theorem formatI_opcode (idx : BitVec 16) (v : Bool) (op : BitVec 8) :
    opcodeOf (formatI idx v op) = op := by
  refine BitVec.eq_of_getLsbD_eq fun j hj => ?_
  simp only [opcodeOf, formatI, BitVec.getLsbD_extractLsb', BitVec.getLsbD_append]
  interval_cases j <;> simp

@[simp] theorem formatI_idx (idx : BitVec 16) (v : Bool) (op : BitVec 8) :
    (formatI idx v op).extractLsb' 16 16 = idx := by
  refine BitVec.eq_of_getLsbD_eq fun j hj => ?_
  simp only [formatI, BitVec.getLsbD_extractLsb', BitVec.getLsbD_append]
  interval_cases j <;> simp

@[simp] theorem formatI_v (idx : BitVec 16) (v : Bool) (op : BitVec 8) :
    (formatI idx v op).extractLsb' 8 1 = BitVec.ofBool v := by
  refine BitVec.eq_of_getLsbD_eq fun j hj => ?_
  simp only [formatI, BitVec.getLsbD_extractLsb', BitVec.getLsbD_append]
  interval_cases j; simp

theorem formatI_mask (idx : BitVec 16) (v : Bool) (op : BitVec 8) :
    formatI idx v op &&& 0x0000FEFF#32 = op.setWidth 32 := by
  refine BitVec.eq_of_getLsbD_eq fun j hj => ?_
  simp only [formatI, BitVec.getLsbD_and, BitVec.getLsbD_append]
  interval_cases j <;> simp

/-- The V bit is 0 in ALLOC and GETBIT, whose mask holds it. -/
theorem formatI_mask_v (idx : BitVec 16) (op : BitVec 8) :
    formatI idx false op &&& 0x0000FFFF#32 = op.setWidth 32 := by
  refine BitVec.eq_of_getLsbD_eq fun j hj => ?_
  simp only [formatI, BitVec.getLsbD_and, BitVec.getLsbD_append]
  interval_cases j <;> simp

@[simp] theorem formatI_getElem_v (idx : BitVec 16) (v : Bool) (op : BitVec 8) :
    (formatI idx v op)[8] = v := by
  rw [← BitVec.getLsbD_eq_getElem]; simp only [formatI, BitVec.getLsbD_append]; simp

@[simp] theorem formatR_opcode (wc k : BitVec 2) (l : BitVec 7) (op : BitVec 8) :
    opcodeOf (formatR wc k l op) = op := by
  refine BitVec.eq_of_getLsbD_eq fun j hj => ?_
  simp only [opcodeOf, formatR, BitVec.getLsbD_extractLsb', BitVec.getLsbD_append]
  interval_cases j <;> simp

@[simp] theorem formatR_wc (wc k : BitVec 2) (l : BitVec 7) (op : BitVec 8) :
    (formatR wc k l op).extractLsb' 18 2 = wc := by
  refine BitVec.eq_of_getLsbD_eq fun j hj => ?_
  simp only [formatR, BitVec.getLsbD_extractLsb', BitVec.getLsbD_append]
  interval_cases j <;> simp

@[simp] theorem formatR_k (wc k : BitVec 2) (l : BitVec 7) (op : BitVec 8) :
    (formatR wc k l op).extractLsb' 16 2 = k := by
  refine BitVec.eq_of_getLsbD_eq fun j hj => ?_
  simp only [formatR, BitVec.getLsbD_extractLsb', BitVec.getLsbD_append]
  interval_cases j <;> simp

@[simp] theorem formatR_l (wc k : BitVec 2) (l : BitVec 7) (op : BitVec 8) :
    (formatR wc k l op).extractLsb' 8 7 = l := by
  refine BitVec.eq_of_getLsbD_eq fun j hj => ?_
  simp only [formatR, BitVec.getLsbD_extractLsb', BitVec.getLsbD_append]
  interval_cases j <;> simp

theorem formatR_mask (wc k : BitVec 2) (l : BitVec 7) (op : BitVec 8) :
    formatR wc k l op &&& 0xFFF080FF#32 = op.setWidth 32 := by
  refine BitVec.eq_of_getLsbD_eq fun j hj => ?_
  simp only [formatR, BitVec.getLsbD_and, BitVec.getLsbD_append]
  interval_cases j <;> simp

@[simp] theorem formatM_opcode (mode : BitVec 2) (ch : BitVec 4) (op : BitVec 8) :
    opcodeOf (formatM mode ch op) = op := by
  refine BitVec.eq_of_getLsbD_eq fun j hj => ?_
  simp only [opcodeOf, formatM, BitVec.getLsbD_extractLsb', BitVec.getLsbD_append]
  interval_cases j <;> simp

@[simp] theorem formatM_mode (mode : BitVec 2) (ch : BitVec 4) (op : BitVec 8) :
    (formatM mode ch op).extractLsb' 12 2 = mode := by
  refine BitVec.eq_of_getLsbD_eq fun j hj => ?_
  simp only [formatM, BitVec.getLsbD_extractLsb', BitVec.getLsbD_append]
  interval_cases j <;> simp

@[simp] theorem formatM_ch (mode : BitVec 2) (ch : BitVec 4) (op : BitVec 8) :
    (formatM mode ch op).extractLsb' 8 4 = ch := by
  refine BitVec.eq_of_getLsbD_eq fun j hj => ?_
  simp only [formatM, BitVec.getLsbD_extractLsb', BitVec.getLsbD_append]
  interval_cases j <;> simp

theorem formatM_mask (mode : BitVec 2) (ch : BitVec 4) (op : BitVec 8) :
    formatM mode ch op &&& 0xFFFFC0FF#32 = op.setWidth 32 := by
  refine BitVec.eq_of_getLsbD_eq fun j hj => ?_
  simp only [formatM, BitVec.getLsbD_and, BitVec.getLsbD_append]
  interval_cases j <;> simp

@[simp] theorem formatA_opcode (addr : BitVec 7) (type : BitVec 4) (bus : BitVec 2) (op : BitVec 8) :
    opcodeOf (formatA addr type bus op) = op := by
  refine BitVec.eq_of_getLsbD_eq fun j hj => ?_
  simp only [opcodeOf, formatA, BitVec.getLsbD_extractLsb', BitVec.getLsbD_append]
  interval_cases j <;> simp

@[simp] theorem formatA_addr (addr : BitVec 7) (type : BitVec 4) (bus : BitVec 2) (op : BitVec 8) :
    (formatA addr type bus op).extractLsb' 14 7 = addr := by
  refine BitVec.eq_of_getLsbD_eq fun j hj => ?_
  simp only [formatA, BitVec.getLsbD_extractLsb', BitVec.getLsbD_append]
  interval_cases j <;> simp

@[simp] theorem formatA_type (addr : BitVec 7) (type : BitVec 4) (bus : BitVec 2) (op : BitVec 8) :
    (formatA addr type bus op).extractLsb' 10 4 = type := by
  refine BitVec.eq_of_getLsbD_eq fun j hj => ?_
  simp only [formatA, BitVec.getLsbD_extractLsb', BitVec.getLsbD_append]
  interval_cases j <;> simp

@[simp] theorem formatA_bus (addr : BitVec 7) (type : BitVec 4) (bus : BitVec 2) (op : BitVec 8) :
    (formatA addr type bus op).extractLsb' 8 2 = bus := by
  refine BitVec.eq_of_getLsbD_eq fun j hj => ?_
  simp only [formatA, BitVec.getLsbD_extractLsb', BitVec.getLsbD_append]
  interval_cases j <;> simp

theorem formatA_mask (addr : BitVec 7) (type : BitVec 4) (bus : BitVec 2) (op : BitVec 8) :
    formatA addr type bus op &&& 0xFFE000FF#32 = op.setWidth 32 := by
  refine BitVec.eq_of_getLsbD_eq fun j hj => ?_
  simp only [formatA, BitVec.getLsbD_and, BitVec.getLsbD_append]
  interval_cases j <;> simp

@[simp] theorem formatB_opcode (byte : BitVec 8) (op : BitVec 8) :
    opcodeOf (formatB byte op) = op := by
  refine BitVec.eq_of_getLsbD_eq fun j hj => ?_
  simp only [opcodeOf, formatB, BitVec.getLsbD_extractLsb', BitVec.getLsbD_append]
  interval_cases j <;> simp

@[simp] theorem formatB_byte (byte : BitVec 8) (op : BitVec 8) :
    (formatB byte op).extractLsb' 8 8 = byte := by
  refine BitVec.eq_of_getLsbD_eq fun j hj => ?_
  simp only [formatB, BitVec.getLsbD_extractLsb', BitVec.getLsbD_append]
  interval_cases j <;> simp

theorem formatB_mask (byte : BitVec 8) (op : BitVec 8) :
    formatB byte op &&& 0xFFFF00FF#32 = op.setWidth 32 := by
  refine BitVec.eq_of_getLsbD_eq fun j hj => ?_
  simp only [formatB, BitVec.getLsbD_and, BitVec.getLsbD_append]
  interval_cases j <;> simp

@[simp] theorem formatF_opcode (part : BitVec 1) (ch : BitVec 4) (op : BitVec 8) :
    opcodeOf (formatF part ch op) = op := by
  refine BitVec.eq_of_getLsbD_eq fun j hj => ?_
  simp only [opcodeOf, formatF, BitVec.getLsbD_extractLsb', BitVec.getLsbD_append]
  interval_cases j <;> simp

@[simp] theorem formatF_part (part : BitVec 1) (ch : BitVec 4) (op : BitVec 8) :
    (formatF part ch op).extractLsb' 12 1 = part := by
  refine BitVec.eq_of_getLsbD_eq fun j hj => ?_
  simp only [formatF, BitVec.getLsbD_extractLsb', BitVec.getLsbD_append]
  interval_cases j; simp

@[simp] theorem formatF_ch (part : BitVec 1) (ch : BitVec 4) (op : BitVec 8) :
    (formatF part ch op).extractLsb' 8 4 = ch := by
  refine BitVec.eq_of_getLsbD_eq fun j hj => ?_
  simp only [formatF, BitVec.getLsbD_extractLsb', BitVec.getLsbD_append]
  interval_cases j <;> simp

theorem formatF_mask (part : BitVec 1) (ch : BitVec 4) (op : BitVec 8) :
    formatF part ch op &&& 0xFFFFE0FF#32 = op.setWidth 32 := by
  refine BitVec.eq_of_getLsbD_eq fun j hj => ?_
  simp only [formatF, BitVec.getLsbD_and, BitVec.getLsbD_append]
  interval_cases j <;> simp

/-- The PART bit is 0 in FXCH, whose mask holds it. -/
theorem formatF_mask_part (ch : BitVec 4) (op : BitVec 8) :
    formatF 0#1 ch op &&& 0xFFFFF0FF#32 = op.setWidth 32 := by
  refine BitVec.eq_of_getLsbD_eq fun j hj => ?_
  simp only [formatF, BitVec.getLsbD_and, BitVec.getLsbD_append]
  interval_cases j <;> simp

@[simp] theorem formatP_opcode (slot : BitVec 4) (bus : BitVec 2) (op : BitVec 8) :
    opcodeOf (formatP slot bus op) = op := by
  refine BitVec.eq_of_getLsbD_eq fun j hj => ?_
  simp only [opcodeOf, formatP, BitVec.getLsbD_extractLsb', BitVec.getLsbD_append]
  interval_cases j <;> simp

@[simp] theorem formatP_slot (slot : BitVec 4) (bus : BitVec 2) (op : BitVec 8) :
    (formatP slot bus op).extractLsb' 10 4 = slot := by
  refine BitVec.eq_of_getLsbD_eq fun j hj => ?_
  simp only [formatP, BitVec.getLsbD_extractLsb', BitVec.getLsbD_append]
  interval_cases j <;> simp

@[simp] theorem formatP_bus (slot : BitVec 4) (bus : BitVec 2) (op : BitVec 8) :
    (formatP slot bus op).extractLsb' 8 2 = bus := by
  refine BitVec.eq_of_getLsbD_eq fun j hj => ?_
  simp only [formatP, BitVec.getLsbD_extractLsb', BitVec.getLsbD_append]
  interval_cases j <;> simp

theorem formatP_mask (slot : BitVec 4) (bus : BitVec 2) (op : BitVec 8) :
    formatP slot bus op &&& 0xFFFFC0FF#32 = op.setWidth 32 := by
  refine BitVec.eq_of_getLsbD_eq fun j hj => ?_
  simp only [formatP, BitVec.getLsbD_and, BitVec.getLsbD_append]
  interval_cases j <;> simp

@[simp] theorem kindOf_kindCode (k : Kind) : kindOf (kindCode k) = some k := by cases k <;> rfl

@[simp] theorem widthOf_widthCode (w : Width) : widthOf (widthCode w) = w := by cases w <;> rfl

@[simp] theorem partOf_partCode (p : EncPart) : partOf (partCode p) = p := by cases p <;> rfl

end Sys2Proof
end

