-- ==== Sys2Proof/Laws/State.lean ====
section
/-! SUPPORT. One lemma for each field of `State` under each named update, true by rfl, so that no proof unfolds a
record update. -/

namespace Sys2Proof.Machine

@[simp] theorem State.withError_mem (e : Code) (s : State) : (s.withError e).mem = s.mem := rfl

@[simp] theorem State.withError_len (e : Code) (s : State) : (s.withError e).len = s.len := rfl

@[simp] theorem State.withError_arg0 (e : Code) (s : State) : (s.withError e).arg0 = s.arg0 := rfl

@[simp] theorem State.withError_result (e : Code) (s : State) : (s.withError e).result = s.result := rfl

@[simp] theorem State.withError_cursor (e : Code) (s : State) : (s.withError e).cursor = s.cursor := rfl

@[simp] theorem State.withError_crc (e : Code) (s : State) : (s.withError e).crc = s.crc := rfl

@[simp] theorem State.withError_code (e : Code) (s : State) : (s.withError e).code = e := rfl

@[simp] theorem State.withError_sticky (e : Code) (s : State) : (s.withError e).sticky = true := rfl

@[simp] theorem State.withError_valid (e : Code) (s : State) : (s.withError e).valid = s.valid := rfl

@[simp] theorem State.withError_disc (e : Code) (s : State) : (s.withError e).disc = s.disc := rfl

@[simp] theorem State.withError_crcok (e : Code) (s : State) : (s.withError e).crcok = s.crcok := rfl

@[simp] theorem State.withError_lock (e : Code) (s : State) : (s.withError e).lock = s.lock := rfl

@[simp] theorem State.withError_fres (e : Code) (s : State) : (s.withError e).fres = s.fres := rfl

@[simp] theorem State.withError_chmode (e : Code) (s : State) : (s.withError e).chmode = s.chmode := rfl

@[simp] theorem State.withError_encmode (e : Code) (s : State) : (s.withError e).encmode = s.encmode := rfl

@[simp] theorem State.withError_ident (e : Code) (s : State) : (s.withError e).ident = s.ident := rfl

@[simp] theorem State.withError_tlen (e : Code) (s : State) : (s.withError e).tlen = s.tlen := rfl

@[simp] theorem State.withError_ptab (e : Code) (s : State) : (s.withError e).ptab = s.ptab := rfl

@[simp] theorem State.withError_cmdLast (e : Code) (s : State) : (s.withError e).cmdLast = s.cmdLast := rfl

@[simp] theorem State.withError_bufCap (e : Code) (s : State) : (s.withError e).bufCap = s.bufCap := rfl

@[simp] theorem State.withError_blockBase (e : Code) (s : State) : (s.withError e).blockBase = s.blockBase := rfl

@[simp] theorem State.withError_inputs (e : Code) (s : State) : (s.withError e).inputs = s.inputs := rfl

@[simp] theorem State.withError_rdata (e : Code) (s : State) : (s.withError e).rdata = s.rdata := rfl

@[simp] theorem State.withOk_mem (s : State) : s.withOk.mem = s.mem := rfl

@[simp] theorem State.withOk_len (s : State) : s.withOk.len = s.len := rfl

@[simp] theorem State.withOk_arg0 (s : State) : s.withOk.arg0 = s.arg0 := rfl

@[simp] theorem State.withOk_result (s : State) : s.withOk.result = s.result := rfl

@[simp] theorem State.withOk_cursor (s : State) : s.withOk.cursor = s.cursor := rfl

@[simp] theorem State.withOk_crc (s : State) : s.withOk.crc = s.crc := rfl

@[simp] theorem State.withOk_code (s : State) : s.withOk.code = .ok := rfl

@[simp] theorem State.withOk_sticky (s : State) : s.withOk.sticky = s.sticky := rfl

@[simp] theorem State.withOk_valid (s : State) : s.withOk.valid = s.valid := rfl

@[simp] theorem State.withOk_disc (s : State) : s.withOk.disc = s.disc := rfl

@[simp] theorem State.withOk_crcok (s : State) : s.withOk.crcok = s.crcok := rfl

@[simp] theorem State.withOk_lock (s : State) : s.withOk.lock = s.lock := rfl

@[simp] theorem State.withOk_fres (s : State) : s.withOk.fres = s.fres := rfl

@[simp] theorem State.withOk_chmode (s : State) : s.withOk.chmode = s.chmode := rfl

@[simp] theorem State.withOk_encmode (s : State) : s.withOk.encmode = s.encmode := rfl

@[simp] theorem State.withOk_ident (s : State) : s.withOk.ident = s.ident := rfl

@[simp] theorem State.withOk_tlen (s : State) : s.withOk.tlen = s.tlen := rfl

@[simp] theorem State.withOk_ptab (s : State) : s.withOk.ptab = s.ptab := rfl

@[simp] theorem State.withOk_cmdLast (s : State) : s.withOk.cmdLast = s.cmdLast := rfl

@[simp] theorem State.withOk_bufCap (s : State) : s.withOk.bufCap = s.bufCap := rfl

@[simp] theorem State.withOk_blockBase (s : State) : s.withOk.blockBase = s.blockBase := rfl

@[simp] theorem State.withOk_inputs (s : State) : s.withOk.inputs = s.inputs := rfl

@[simp] theorem State.withOk_rdata (s : State) : s.withOk.rdata = s.rdata := rfl

@[simp] theorem State.withCrc_mem (s : State) : s.withCrc.mem = s.mem := rfl

@[simp] theorem State.withCrc_len (s : State) : s.withCrc.len = s.len := rfl

@[simp] theorem State.withCrc_arg0 (s : State) : s.withCrc.arg0 = s.arg0 := rfl

@[simp] theorem State.withCrc_result (s : State) : s.withCrc.result = s.result := rfl

@[simp] theorem State.withCrc_cursor (s : State) : s.withCrc.cursor = s.cursor := rfl

@[simp] theorem State.withCrc_crc (s : State) : s.withCrc.crc = crc16 s.payload := rfl

@[simp] theorem State.withCrc_code (s : State) : s.withCrc.code = s.code := rfl

@[simp] theorem State.withCrc_sticky (s : State) : s.withCrc.sticky = s.sticky := rfl

@[simp] theorem State.withCrc_valid (s : State) : s.withCrc.valid = s.valid := rfl

@[simp] theorem State.withCrc_disc (s : State) : s.withCrc.disc = s.disc := rfl

@[simp] theorem State.withCrc_crcok (s : State) : s.withCrc.crcok = (crc16 s.payload == s.trailer) := rfl

@[simp] theorem State.withCrc_lock (s : State) : s.withCrc.lock = s.lock := rfl

@[simp] theorem State.withCrc_fres (s : State) : s.withCrc.fres = s.fres := rfl

@[simp] theorem State.withCrc_chmode (s : State) : s.withCrc.chmode = s.chmode := rfl

@[simp] theorem State.withCrc_encmode (s : State) : s.withCrc.encmode = s.encmode := rfl

@[simp] theorem State.withCrc_ident (s : State) : s.withCrc.ident = s.ident := rfl

@[simp] theorem State.withCrc_tlen (s : State) : s.withCrc.tlen = s.tlen := rfl

@[simp] theorem State.withCrc_ptab (s : State) : s.withCrc.ptab = s.ptab := rfl

@[simp] theorem State.withCrc_cmdLast (s : State) : s.withCrc.cmdLast = s.cmdLast := rfl

@[simp] theorem State.withCrc_bufCap (s : State) : s.withCrc.bufCap = s.bufCap := rfl

@[simp] theorem State.withCrc_blockBase (s : State) : s.withCrc.blockBase = s.blockBase := rfl

@[simp] theorem State.withCrc_inputs (s : State) : s.withCrc.inputs = s.inputs := rfl

@[simp] theorem State.withCrc_rdata (s : State) : s.withCrc.rdata = s.rdata := rfl

@[simp] theorem State.withFetchWord_toBlock (s : State) (nbits w : Nat) :
    (s.withFetchWord nbits w).toBlock = s.toBlock := rfl

@[simp] theorem State.withFetchWord_bufCap (s : State) (nbits w : Nat) :
    (s.withFetchWord nbits w).bufCap = s.bufCap := rfl

@[simp] theorem State.withFetchWord_blockBase (s : State) (nbits w : Nat) :
    (s.withFetchWord nbits w).blockBase = s.blockBase := rfl

@[simp] theorem State.withFetchWord_inputs (s : State) (nbits w : Nat) :
    (s.withFetchWord nbits w).inputs = .write s.blockBase 4 (BitVec.ofNat 32 (w % 2 ^ nbits)) :: s.inputs := rfl

@[simp] theorem State.withFetchWord_rdata (s : State) (nbits w : Nat) :
    (s.withFetchWord nbits w).rdata = s.rdata := rfl

@[simp] theorem State.reset_toBlock : State.reset.toBlock = Block.reset := rfl

@[simp] theorem State.reset_inputs : State.reset.inputs = [] := rfl

@[simp] theorem State.reset_bufCap : State.reset.bufCap = 256 := rfl

@[simp] theorem State.reset_blockBase : State.reset.blockBase = 0 := rfl

@[simp] theorem State.reset_rdata : State.reset.rdata = 0#32 := rfl

end Sys2Proof.Machine
end

