-- ==== Sys2Proof/Laws/Ops.lean ====
section
/-! SUPPORT. What each shared operation can do, said once: errors and success, operand numbers, the checks of ranges,
fields and accesses, and the paths of a host access and of a step. -/

namespace Sys2Proof.Machine

@[simp] theorem raise_eq (e : Code) (s : State) : raise e s = .next (s.withError e) := rfl

@[simp] theorem complete_eq (s : State) : complete s = .next s.withOk := rfl

/-- A command whose checks are settled ends in one of two ways. -/
theorem settle_cases (check : Option Code) (s t u : State) (h : settle check s t = .next u) :
    (∃ e, check = some e ∧ u = s.withError e) ∨ (check = none ∧ u = t.withOk) := by
  cases check with
  | none => exact Or.inr ⟨rfl, by simpa [settle] using h.symm⟩
  | some e => exact Or.inl ⟨e, rfl, by simpa [settle] using h.symm⟩

@[simp] theorem settle_some (e : Code) (s t : State) : settle (some e) s t = .next (s.withError e) := rfl

@[simp] theorem settle_none (s t : State) : settle none s t = .next t.withOk := rfl

/-- An operand names item `k` when it is one more than `k`. -/
theorem numbered_eq_some (n x : Nat) (k : Fin n) : numbered n x = some k ↔ x = k.val + 1 := by
  unfold numbered
  split
  · next h => rw [Option.some_inj, Fin.ext_iff]; simp only; omega
  · next h => simp only [reduceCtorEq, false_iff]; have := k.isLt; omega

theorem numbered_eq_none (n x : Nat) : numbered n x = none ↔ x < 1 ∨ n < x := by
  unfold numbered
  split
  · next h => simp only [reduceCtorEq, false_iff]; omega
  · next h => simp only [true_iff]; omega

/-- A range passes its checks exactly when kind and width are legal, the length fits the width, and the range ends in
the buffer. -/
theorem rangeCheck_eq_none (s : State) (start l : Nat) (k : Kind) (w : Width) :
    rangeCheck s start l k w = none ↔ legalKind k w = true ∧ l ≤ widthBits w ∧ start + l ≤ s.bitLength := by
  unfold rangeCheck
  split_ifs with h1 h2 h3 <;> simp [h1] <;> omega

/-- A field passes its checks exactly when the configuration is locked, the item configured, the frame valid, and the
field ends in the buffer. -/
theorem fieldCheck_eq_none (s : State) (configured : Bool) (stop : Nat) :
    fieldCheck s configured stop = none ↔
      s.lock = true ∧ configured = true ∧ s.valid = true ∧ stop ≤ s.bitLength := by
  unfold fieldCheck
  split_ifs with h1 h2 h3 h4 <;> simp_all

/-- A descriptor passes its checks exactly when the reply length fits 16 bits and is not 0, and no descriptor of the bus
has its type or its address. -/
theorem attachCheck_eq_none (s : State) (b : Fin 3) (t : BitVec 4) (a : BitVec 7) :
    attachCheck s b t a = none ↔
      (s.arg0.toNat ≠ 0 ∧ s.arg0.toNat ≤ 0xFFFF) ∧ (∀ p ∈ s.ptab[b], p.type ≠ t) ∧ ∀ p ∈ s.ptab[b], p.addr ≠ a := by
  unfold attachCheck
  split_ifs with h1 h2 h3
  · simp only [false_iff]; omega
  · simp only [List.any_eq_true, beq_iff_eq] at h2
    obtain ⟨p, hp, he⟩ := h2
    simp only [false_iff]
    exact fun h => h.2.1 p hp he
  · simp only [List.any_eq_true, beq_iff_eq] at h3
    obtain ⟨p, hp, he⟩ := h3
    simp only [false_iff]
    exact fun h => h.2.2 p hp he
  · simp only [true_iff]
    refine ⟨by omega, fun p hp he => h2 ?_, fun p hp he => h3 ?_⟩
    · exact List.any_eq_true.2 ⟨p, hp, by simp [he]⟩
    · exact List.any_eq_true.2 ⟨p, hp, by simp [he]⟩

/-- A buffer access passes its checks exactly when its width is 1, 2 or 4, it is aligned, and it ends in the buffer and
in the allocated frame. -/
theorem bufCheck_eq_none (s : State) (j width : Nat) :
    bufCheck s j width = none ↔
      (width = 1 ∨ width = 2 ∨ width = 4) ∧ j % width = 0 ∧ j + width ≤ s.bufCap ∧ j + width ≤ s.len.toNat := by
  unfold bufCheck
  split_ifs with h1 h2
  · simp only [false_iff]; rintro ⟨h, h', h'', -⟩; rcases h1 with h1 | h1 | h1 <;> omega
  · simp only [false_iff]; omega
  · simp only [true_iff]; omega

/-- A failing read or write ends in one of these codes (rule R62). -/
theorem bufCheck_cases (s : State) (j width : Nat) (e : Code) (h : bufCheck s j width = some e) :
    e = .busacc ∨ e = .oob := by
  unfold bufCheck at h
  split_ifs at h <;> simp_all

/-- What a host read can do: stop below the window, give data, or fail. -/
theorem hostRead_cases (addr width : Nat) (s u : State) (h : hostRead addr width s = .next u) :
    s.blockBase ≤ addr ∧
      ((∃ v, u = { s with rdata := v }) ∨ ∃ e, (e = .busacc ∨ e = .oob) ∧ u = State.withError e { s with rdata := 0#32 }) := by
  unfold hostRead at h
  split_ifs at h with h1 h2
  · refine ⟨by omega, ?_⟩
    unfold readRegister at h
    split_ifs at h
    · split at h
      · exact Or.inl ⟨_, by simpa [giveRead] using h.symm⟩
      · exact Or.inr ⟨.busacc, Or.inl rfl, by simpa [failRead] using h.symm⟩
    · exact Or.inr ⟨.busacc, Or.inl rfl, by simpa [failRead] using h.symm⟩
  · refine ⟨by omega, ?_⟩
    unfold readBuffer at h
    split at h
    · next e he => exact Or.inr ⟨e, bufCheck_cases _ _ _ _ he, by simpa [failRead] using h.symm⟩
    · exact Or.inl ⟨_, by simpa [giveRead] using h.symm⟩

/-- What a command word can do: run its command, or record ILLEGAL. -/
theorem runCommand_cases (w : Word) (s u : State) (h : runCommand w s = .next u) :
    (∃ i, decode w = .ok i ∧ exec i { s with cmdLast := w } = .next u) ∨
      ∃ e, decode w = .error e ∧ u = State.withError .illegal { s with cmdLast := w } := by
  unfold runCommand at h
  split at h
  · next i hi => exact Or.inl ⟨i, hi, h⟩
  · next e he => exact Or.inr ⟨e, he, by simpa using h.symm⟩

/-- Offsets 0x00, 0x08 and 0x20 are CMD, ARG0 and CURSOR, and no other offset is (rule R22). -/
theorem regAt_cases (off : Nat) (r : Reg) (h : regAt off = some r) :
    (r = .cmd → off = 0x00) ∧ (r = .arg0 → off = 0x08) ∧ (r = .cursor → off = 0x20) := by
  unfold regAt at h
  split_ifs at h with hlt
  · interval_cases off <;> simp [namedRegs, List.lookup] at h <;> subst h <;> simp
  · cases h; simp

/-- What a host write can do: stop below the window, run a command, store ARG0 or CURSOR, write the buffer, or fail. -/
theorem hostWrite_cases (addr width : Nat) (data : Word) (s u : State) (h : hostWrite addr width data s = .next u) :
    s.blockBase ≤ addr ∧
      ((addr = s.blockBase ∧ width = 4 ∧ runCommand data s = .next u) ∨
        u = { s with arg0 := data } ∨ u = { s with cursor := data } ∨
        (∃ j, bufCheck s j width = none ∧
          u = { s with mem := Memory.writeBytes s.mem j width data, valid := false }) ∨
        ∃ e, (e = .busacc ∨ e = .oob) ∧ u = s.withError e) := by
  unfold hostWrite at h
  split_ifs at h with h1 h2
  · refine ⟨by omega, ?_⟩
    unfold writeRegister at h
    split_ifs at h with h3
    · split at h
      · next hr =>
        have := (regAt_cases _ _ hr).1 rfl
        simp only [regAccessOk, Bool.and_eq_true, beq_iff_eq] at h3
        exact Or.inl ⟨by omega, h3.1, h⟩
      · exact Or.inr (Or.inl (by simpa using h.symm))
      · exact Or.inr (Or.inr (Or.inl (by simpa using h.symm)))
      · exact Or.inr (Or.inr (Or.inr (Or.inr ⟨.busacc, Or.inl rfl, by simpa using h.symm⟩)))
    · exact Or.inr (Or.inr (Or.inr (Or.inr ⟨.busacc, Or.inl rfl, by simpa using h.symm⟩)))
  · refine ⟨by omega, ?_⟩
    unfold writeBuffer at h
    split at h
    · next e he => exact Or.inr (Or.inr (Or.inr (Or.inr ⟨e, bufCheck_cases _ _ _ _ he, by simpa using h.symm⟩)))
    · next he => exact Or.inr (Or.inr (Or.inr (Or.inl ⟨_, he, by simpa using h.symm⟩)))

/-- What a step can do: nothing with no input, or the next input. -/
theorem step_cases (s u : State) (h : step s = .next u) :
    (s.inputs = [] ∧ u = s) ∨ ∃ x rest, s.inputs = x :: rest ∧ perform x { s with inputs := rest } = .next u := by
  unfold step at h
  split at h
  · next he => exact Or.inl ⟨he, by simpa using h.symm⟩
  · next x rest he => exact Or.inr ⟨x, rest, he, h⟩

/-- A write of a word to CMD is performed by running it (rules R24 and R64). -/
theorem hostWrite_cmd (w : Word) (s : State) : hostWrite s.blockBase 4 w s = runCommand w s := by
  simp [hostWrite, Config.bufWindow, writeRegister, regAccessOk, regAt, namedRegs]

end Sys2Proof.Machine
end

