-- ==== Sys2Proof/Laws/Exec.lean ====
section
/-! SUPPORT. What each meaning can do, said once: if it answers a next state, that state is the one an error leaves or the
one its effects leave, and under which condition. -/

namespace Sys2Proof.Machine

theorem execNop_cases (s t : State) (h : execNop s = .next t) : t = s.withOk := by
  simpa [execNop] using h.symm

theorem execClrerr_cases (s t : State) (h : execClrerr s = .next t) :
    t = State.withOk { s with sticky := false } := by
  simpa [execClrerr] using h.symm

theorem execAlloc_cases (n : BitVec 16) (s t : State) (h : execAlloc n s = .next t) :
    (s.bufCap < n.toNat ∧ t = s.withError .oob) ∨
      (n.toNat ≤ s.bufCap ∧
        t = State.withOk { s with len := n, mem := [], cursor := 0#32, valid := false, crcok := false }) := by
  unfold execAlloc at h
  split_ifs at h with hc
  · exact Or.inl ⟨hc, by simpa using h.symm⟩
  · exact Or.inr ⟨by omega, by simpa using h.symm⟩

theorem execSetbit_cases (i : BitVec 16) (v : Bool) (s t : State) (h : execSetbit i v s = .next t) :
    (s.bitLength ≤ i.toNat ∧ t = s.withError .oob) ∨
      (i.toNat < s.bitLength ∧
        t = State.withOk { s with mem := Memory.setBit s.mem i.toNat v, valid := false }) := by
  unfold execSetbit at h
  split_ifs at h with hc
  · exact Or.inl ⟨hc, by simpa using h.symm⟩
  · exact Or.inr ⟨by omega, by simpa using h.symm⟩

theorem execGetbit_cases (i : BitVec 16) (s t : State) (h : execGetbit i s = .next t) :
    (s.bitLength ≤ i.toNat ∧ t = s.withError .oob) ∨
      (i.toNat < s.bitLength ∧
        t = State.withOk { s with result := zeroExtend64 (Memory.bit s.mem i.toNat).toNat }) := by
  unfold execGetbit at h
  split_ifs at h with hc
  · exact Or.inl ⟨hc, by simpa using h.symm⟩
  · exact Or.inr ⟨by omega, by simpa using h.symm⟩

theorem execGetrange_cases (l : BitVec 7) (k : Kind) (w : Width) (s t : State) (h : execGetrange l k w s = .next t) :
    (∃ e, rangeCheck s s.arg0.toNat l.toNat k w = some e ∧ t = s.withError e) ∨
      (rangeCheck s s.arg0.toNat l.toNat k w = none ∧
        t = State.withOk { s with result := extract s.mem s.arg0.toNat l.toNat k w }) :=
  settle_cases _ _ _ _ h

theorem execGetnext_cases (l : BitVec 7) (k : Kind) (w : Width) (s t : State) (h : execGetnext l k w s = .next t) :
    (∃ e, rangeCheck s s.cursor.toNat l.toNat k w = some e ∧ t = s.withError e) ∨
      (rangeCheck s s.cursor.toNat l.toNat k w = none ∧
        t = State.withOk
          { s with
            result := extract s.mem s.cursor.toNat l.toNat k w
            cursor := BitVec.ofNat 32 (s.cursor.toNat + l.toNat) }) :=
  settle_cases _ _ _ _ h

theorem execCrcgen_cases (s t : State) (h : execCrcgen s = .next t) :
    (s.len.toNat < 2 ∧ t = s.withError .badlen) ∨ (2 ≤ s.len.toNat ∧ t = s.withCrc.withOk) := by
  unfold execCrcgen at h
  split_ifs at h with hc
  · exact Or.inl ⟨hc, by simpa using h.symm⟩
  · exact Or.inr ⟨by omega, by simpa using h.symm⟩

theorem execFramechk_cases (s t : State) (h : execFramechk s = .next t) :
    ((s.len.toNat = 0 ∨ Memory.read s.mem 0 ≠ s.ident) ∧
        t = State.withOk { s with disc := true, valid := false, fres := .identityFail }) ∨
      (s.len.toNat = 1 ∧ Memory.read s.mem 0 = s.ident ∧
        t = State.withOk { s with valid := false, crcok := false, fres := .checksumFail }) ∨
      (2 ≤ s.len.toNat ∧ Memory.read s.mem 0 = s.ident ∧ crc16 s.payload = s.trailer ∧
        t = State.withOk { s.withCrc with valid := true, disc := false, fres := .pass }) ∨
      (2 ≤ s.len.toNat ∧ Memory.read s.mem 0 = s.ident ∧ crc16 s.payload ≠ s.trailer ∧
        t = State.withOk { s.withCrc with valid := false, fres := .checksumFail }) := by
  unfold execFramechk at h
  split_ifs at h with h1 h2 h3
  · exact Or.inl ⟨h1, by simpa using h.symm⟩
  · rw [not_or, not_not] at h1
    exact Or.inr (Or.inl ⟨by omega, h1.2, by simpa using h.symm⟩)
  · rw [not_or, not_not] at h1
    exact Or.inr (Or.inr (Or.inl ⟨by omega, h1.2, by simpa using h3, by simpa using h.symm⟩))
  · rw [not_or, not_not] at h1
    exact Or.inr (Or.inr (Or.inr ⟨by omega, h1.2, by simpa using h3, by simpa using h.symm⟩))

theorem execSetch_cases (c : BitVec 4) (m : BitVec 2) (s t : State) (h : execSetch c m s = .next t) :
    (∃ e, (e = .locked ∨ e = .range ∨ e = .badval) ∧ t = s.withError e) ∨
      ∃ k mode, s.lock = false ∧ channelOf c = some k ∧ chModeOf m = some mode ∧
        t = State.withOk { s with chmode := s.chmode.set k mode } := by
  unfold execSetch at h
  split_ifs at h with hl
  · exact Or.inl ⟨.locked, by simp, by simpa using h.symm⟩
  · split at h
    · exact Or.inl ⟨.range, by simp, by simpa using h.symm⟩
    · next k hk =>
      split at h
      · exact Or.inl ⟨.badval, by simp, by simpa using h.symm⟩
      · next mode hm => exact Or.inr ⟨k, mode, by simpa using hl, hk, hm, by simpa using h.symm⟩

theorem execSetenc_cases (e : BitVec 4) (m : BitVec 2) (s t : State) (h : execSetenc e m s = .next t) :
    (∃ e, (e = .locked ∨ e = .range ∨ e = .badval) ∧ t = s.withError e) ∨
      ∃ k mode, s.lock = false ∧ encoderOf e = some k ∧ encModeOf m = some mode ∧
        t = State.withOk { s with encmode := s.encmode.set k mode } := by
  unfold execSetenc at h
  split_ifs at h with hl
  · exact Or.inl ⟨.locked, by simp, by simpa using h.symm⟩
  · split at h
    · exact Or.inl ⟨.range, by simp, by simpa using h.symm⟩
    · next k hk =>
      split at h
      · exact Or.inl ⟨.badval, by simp, by simpa using h.symm⟩
      · next mode hm => exact Or.inr ⟨k, mode, by simpa using hl, hk, hm, by simpa using h.symm⟩

theorem execAttach_cases (b : BitVec 2) (ty : BitVec 4) (a : BitVec 7) (s t : State)
    (h : execAttach b ty a s = .next t) :
    (∃ e, (e = .locked ∨ e = .range ∨ e = .badval ∨ e = .duptype ∨ e = .dupaddr) ∧ t = s.withError e) ∨
      ∃ k, s.lock = false ∧ busOf b = some k ∧ attachCheck s k ty a = none ∧
        t = State.withOk { s with ptab := s.ptab.set k (s.ptab[k] ++ [Peripheral.mk ty a (s.arg0.setWidth 16)]) } := by
  unfold execAttach at h
  split_ifs at h with hl
  · exact Or.inl ⟨.locked, by simp, by simpa using h.symm⟩
  · split at h
    · exact Or.inl ⟨.range, by simp, by simpa using h.symm⟩
    · next k hk =>
      rcases settle_cases _ _ _ _ h with ⟨e, he, rfl⟩ | ⟨he, rfl⟩
      · refine Or.inl ⟨e, ?_, rfl⟩
        unfold attachCheck at he
        split_ifs at he <;> simp_all
      · exact Or.inr ⟨k, by simpa using hl, hk, he, rfl⟩

theorem execSetid_cases (x : BitVec 8) (s t : State) (h : execSetid x s = .next t) :
    t = State.withOk { s with ident := x, valid := false } := by
  simpa [execSetid] using h.symm

theorem execLayout_cases (s t : State) (h : execLayout s = .next t) :
    (Config.maxTlen < s.layoutTlen ∧ t = s.withError .toolarge) ∨
      (s.layoutTlen ≤ Config.maxTlen ∧
        t = State.withOk
          { s with
            tlen := BitVec.ofNat 7 s.layoutTlen
            lock := true
            valid := false
            disc := false
            fres := .unchecked }) := by
  unfold execLayout at h
  split_ifs at h with hc
  · exact Or.inl ⟨hc, by simpa using h.symm⟩
  · exact Or.inr ⟨by omega, by simpa using h.symm⟩

theorem execCfgclr_cases (s t : State) (h : execCfgclr s = .next t) :
    t = State.withOk
      { s with
        chmode := Vector.replicate 12 .off
        encmode := Vector.replicate 6 .off
        ptab := Vector.replicate 3 []
        tlen := 0#7
        lock := false
        valid := false } := by
  simpa [execCfgclr] using h.symm

/-- An error of a field's checks is one of three (rule R190). -/
theorem fieldCheck_cases (s : State) (configured : Bool) (stop : Nat) (e : Code)
    (h : fieldCheck s configured stop = some e) : e = .notcfg ∨ e = .noframe ∨ e = .oob := by
  unfold fieldCheck at h
  split_ifs at h <;> simp_all

/-- An error of a range's checks is one of three (rules R124 and R125). -/
theorem rangeCheck_cases (s : State) (start l : Nat) (k : Kind) (w : Width) (e : Code)
    (h : rangeCheck s start l k w = some e) : e = .illegal ∨ e = .badlen ∨ e = .oob := by
  unfold rangeCheck at h
  split_ifs at h <;> simp_all

theorem execFxch_cases (c : BitVec 4) (s t : State) (h : execFxch c s = .next t) :
    (∃ e, (e = .range ∨ e = .notcfg ∨ e = .noframe ∨ e = .oob) ∧ t = s.withError e) ∨
      ∃ k, channelOf c = some k ∧
        fieldCheck s (s.chmode[k] != .off) (s.chStart c.toNat + chWidth s.chmode[k]) = none ∧
        t = State.withOk
          { s with
            result := zeroExtend64 (Memory.raw s.mem (s.chStart c.toNat) (chWidth s.chmode[k]))
            cursor := BitVec.ofNat 32 (s.chStart c.toNat + chWidth s.chmode[k]) } := by
  unfold execFxch at h
  split at h
  · exact Or.inl ⟨.range, by simp, by simpa using h.symm⟩
  · next k hk =>
    rcases settle_cases _ _ _ _ h with ⟨e, he, rfl⟩ | ⟨he, rfl⟩
    · exact Or.inl ⟨e, Or.inr (fieldCheck_cases _ _ _ _ he), rfl⟩
    · exact Or.inr ⟨k, hk, he, rfl⟩

theorem execFxenc_cases (e : BitVec 4) (p : EncPart) (s t : State) (h : execFxenc e p s = .next t) :
    (∃ e, (e = .range ∨ e = .notcfg ∨ e = .noframe ∨ e = .oob) ∧ t = s.withError e) ∨
      ∃ k, encoderOf e = some k ∧
        fieldCheck s (s.encmode[k] != .off) (s.encStart e.toNat + (encPart p).1 + (encPart p).2) = none ∧
        t = State.withOk
          { s with
            result := signExtend64 (Memory.raw s.mem (s.encStart e.toNat + (encPart p).1) (encPart p).2) (encPart p).2
            cursor := BitVec.ofNat 32 (s.encStart e.toNat + (encPart p).1 + (encPart p).2) } := by
  unfold execFxenc at h
  split at h
  · exact Or.inl ⟨.range, by simp, by simpa using h.symm⟩
  · next k hk =>
    rcases settle_cases _ _ _ _ h with ⟨e', he, rfl⟩ | ⟨he, rfl⟩
    · exact Or.inl ⟨e', Or.inr (fieldCheck_cases _ _ _ _ he), rfl⟩
    · exact Or.inr ⟨k, hk, he, rfl⟩

theorem execFxper_cases (b : BitVec 2) (slot : BitVec 4) (s t : State) (h : execFxper b slot s = .next t) :
    (∃ e, (e = .range ∨ e = .notcfg ∨ e = .noframe ∨ e = .oob) ∧ t = s.withError e) ∨
      ∃ k p, busOf b = some k ∧ s.ptab[k][slot.toNat]? = some p ∧
        fieldCheck s true (s.pStart k slot.toNat + p.rlen.toNat) = none ∧
        t = State.withOk
          { s with
            result := fxperResult (Memory.bit s.mem (s.pStart k slot.toNat)) p.rlen (s.pStart k slot.toNat)
            cursor := BitVec.ofNat 32 (s.pStart k slot.toNat) } := by
  unfold execFxper at h
  split at h
  · exact Or.inl ⟨.range, by simp, by simpa using h.symm⟩
  · next k hk =>
    split at h
    · exact Or.inl ⟨.notcfg, by simp, by simpa using h.symm⟩
    · next p hp =>
      rcases settle_cases _ _ _ _ h with ⟨e', he, rfl⟩ | ⟨he, rfl⟩
      · exact Or.inl ⟨e', Or.inr (fieldCheck_cases _ _ _ _ he), rfl⟩
      · exact Or.inr ⟨k, p, hk, hp, he, rfl⟩

end Sys2Proof.Machine
end

