-- ==== Sys2Proof/Laws/Memory.lean ====
section
/-! SUPPORT. The buffer: a byte read after a write, the canonical form that every write keeps, and bits and bit ranges in
terms of bytes. -/

namespace Sys2Proof.Machine

@[simp] theorem Memory.read_nil (a : Nat) : Memory.read [] a = 0#8 := rfl

theorem Memory.read_cons (c : Host.Cell) (m : Memory) (a : Nat) :
    Memory.read (c :: m) a = if c.1 = a then c.2 else Memory.read m a := rfl

theorem Memory.read_of_not_listed (m : Memory) (a : Nat) (h : ∀ c ∈ m, c.1 ≠ a) : Memory.read m a = 0#8 := by
  induction m with
  | nil => rfl
  | cons d m ih =>
    rw [read_cons, if_neg (h d (by simp)), ih fun c hc => h c (by simp [hc])]

theorem Memory.read_filter_same (m : Memory) (a : Nat) : Memory.read (m.filter fun c => c.1 ≠ a) a = 0#8 :=
  read_of_not_listed _ _ fun c hc => by simpa using (List.mem_filter.1 hc).2

theorem Memory.read_filter_other (m : Memory) (a b : Nat) (h : b ≠ a) :
    Memory.read (m.filter fun c => c.1 ≠ a) b = Memory.read m b := by
  induction m with
  | nil => rfl
  | cons d m ih =>
    by_cases hd : d.1 = a
    · have hdb : d.1 ≠ b := fun e => h (e ▸ hd)
      rw [List.filter_cons_of_neg (by simp [hd]), read_cons, if_neg hdb, ih]
    · rw [List.filter_cons_of_pos (by simp [hd]), read_cons, read_cons, ih]

theorem Memory.mem_insert (m : Memory) (c d : Host.Cell) : d ∈ Memory.insert m c ↔ d = c ∨ d ∈ m := by
  induction m with
  | nil => simp [Memory.insert]
  | cons e m ih =>
    simp only [Memory.insert]
    split
    · simp
    · simp only [List.mem_cons, ih]; tauto

theorem Memory.read_insert (m : Memory) (c : Host.Cell) (b : Nat) (h : ∀ d ∈ m, d.1 ≠ c.1) :
    Memory.read (Memory.insert m c) b = if c.1 = b then c.2 else Memory.read m b := by
  induction m with
  | nil => rfl
  | cons e m ih =>
    have he : e.1 ≠ c.1 := h e (by simp)
    simp only [Memory.insert]
    split
    · rfl
    · rw [read_cons, ih fun d hd => h d (by simp [hd]), read_cons]
      split_ifs with h1 h2
      · exact absurd (h1.trans h2.symm) he
      all_goals rfl

/-- What every byte is after one byte is written. -/
theorem Memory.read_write (m : Memory) (a b : Nat) (v : Byte) :
    Memory.read (Memory.write m a v) b = if b = a then v else Memory.read m b := by
  unfold Memory.write
  by_cases hv : v = 0#8
  · by_cases hb : b = a
    · subst hb; simp only [hv, if_true]; exact read_filter_same m b
    · simp only [hv, if_true, if_neg hb]; exact read_filter_other m a b hb
  · simp only [if_neg hv]
    rw [read_insert _ _ _ fun d hd => by simpa using (List.mem_filter.1 hd).2]
    by_cases hb : b = a
    · subst hb; simp
    · rw [if_neg fun e => hb e.symm, if_neg hb, read_filter_other m a b hb]

@[simp] theorem Memory.read_write_same (m : Memory) (a : Nat) (v : Byte) :
    Memory.read (Memory.write m a v) a = v := by rw [read_write, if_pos rfl]

theorem Memory.read_write_other (m : Memory) (a b : Nat) (v : Byte) (h : b ≠ a) :
    Memory.read (Memory.write m a v) b = Memory.read m b := by rw [read_write, if_neg h]

theorem Memory.wf_nil : Memory.wf [] := ⟨List.Pairwise.nil, by simp⟩

theorem Memory.wf_filter (m : Memory) (p : Host.Cell → Bool) (h : Memory.wf m) : Memory.wf (m.filter p) :=
  ⟨h.1.filter _, fun c hc => h.2 c (List.mem_filter.1 hc).1⟩

theorem Memory.wf_insert (m : Memory) (c : Host.Cell) (h : Memory.wf m) (hc : c.2 ≠ 0#8) (hn : ∀ d ∈ m, d.1 ≠ c.1) :
    Memory.wf (Memory.insert m c) := by
  refine ⟨?_, fun d hd => ?_⟩
  · induction m with
    | nil => simp [Memory.insert]
    | cons e m ih =>
      obtain ⟨hp, hz⟩ := h
      rw [List.pairwise_cons] at hp
      simp only [Memory.insert]
      split
      · next hlt =>
        rw [List.pairwise_cons, List.pairwise_cons]
        refine ⟨fun d hd => ?_, hp⟩
        rcases List.mem_cons.1 hd with rfl | hd
        · exact hlt
        · exact hlt.trans (hp.1 d hd)
      · next hlt =>
        rw [List.pairwise_cons]
        have hne : e.1 ≠ c.1 := hn e (by simp)
        refine ⟨fun d hd => ?_, ih ⟨hp.2, fun d hd => hz d (by simp [hd])⟩ fun d hd => hn d (by simp [hd])⟩
        rcases (mem_insert m c d).1 hd with rfl | hd
        · omega
        · exact hp.1 d hd
  · rcases (mem_insert m c d).1 hd with rfl | hd
    · exact hc
    · exact h.2 d hd

/-- A write keeps the canonical form. -/
theorem Memory.wf_write (m : Memory) (a : Nat) (v : Byte) (h : Memory.wf m) : Memory.wf (Memory.write m a v) := by
  unfold Memory.write
  by_cases hv : v = 0#8
  · simp only [hv, if_true]; exact wf_filter m _ h
  · simp only [if_neg hv]
    exact wf_insert _ _ (wf_filter m _ h) hv fun d hd => by simpa using (List.mem_filter.1 hd).2

/-- A write lists no index but its own that was not listed before. -/
theorem Memory.mem_write (m : Memory) (a : Nat) (v : Byte) (c : Host.Cell) (h : c ∈ Memory.write m a v) :
    c = (a, v) ∨ c ∈ m := by
  unfold Memory.write at h
  by_cases hv : v = 0#8
  · simp only [hv, if_true] at h; exact Or.inr (List.mem_filter.1 h).1
  · simp only [if_neg hv] at h
    exact ((mem_insert _ _ _).1 h).imp_right fun h => (List.mem_filter.1 h).1

/-- In a canonical memory every byte below is listed: canonical memories that read alike are equal data. -/
theorem Memory.ext_of_wf (m n : Memory) (hm : Memory.wf m) (hn : Memory.wf n)
    (h : ∀ a, Memory.read m a = Memory.read n a) : m = n := by
  induction m generalizing n with
  | nil =>
    cases n with
    | nil => rfl
    | cons d n =>
      have := h d.1
      rw [read_nil, read_cons, if_pos rfl] at this
      exact absurd this.symm (hn.2 d (by simp))
  | cons c m ih =>
    have low : ∀ (x : Host.Cell) (l : Memory), Memory.wf (x :: l) → ∀ a, a < x.1 → Memory.read (x :: l) a = 0#8 := by
      intro x l hl a ha
      refine read_of_not_listed _ _ fun y hy => ?_
      rcases List.mem_cons.1 hy with rfl | hy
      · omega
      · have := (List.pairwise_cons.1 hl.1).1 y hy
        omega
    cases n with
    | nil =>
      have := h c.1
      rw [read_nil, read_cons, if_pos rfl] at this
      exact absurd this (hm.2 c (by simp))
    | cons d n =>
      have hcd : c.1 = d.1 := by
        rcases Nat.lt_trichotomy c.1 d.1 with hlt | heq | hgt
        · have := h c.1
          rw [low d n hn _ hlt, read_cons, if_pos rfl] at this
          exact absurd this (hm.2 c (by simp))
        · exact heq
        · have := h d.1
          rw [low c m hm _ hgt, read_cons, if_pos rfl] at this
          exact absurd this.symm (hn.2 d (by simp))
      have hv : c.2 = d.2 := by
        have := h c.1
        rwa [read_cons, if_pos rfl, read_cons, if_pos hcd.symm] at this
      have hrest : m = n := by
        refine ih n ⟨hm.1.of_cons, fun x hx => hm.2 x (by simp [hx])⟩
          ⟨hn.1.of_cons, fun x hx => hn.2 x (by simp [hx])⟩ fun a => ?_
        by_cases ha : c.1 = a
        · rw [read_of_not_listed m a fun x hx => ?_, read_of_not_listed n a fun x hx => ?_]
          · have := (List.pairwise_cons.1 hn.1).1 x hx
            omega
          · have := (List.pairwise_cons.1 hm.1).1 x hx
            omega
        · have := h a
          rwa [read_cons, if_neg ha, read_cons, if_neg (hcd ▸ ha)] at this
      rw [Prod.ext hcd hv, hrest]

/-- What every byte is after `n` bytes are written from byte `a` up. -/
theorem Memory.read_writeBytes (m : Memory) (a n b : Nat) (v : Word) :
    Memory.read (Memory.writeBytes m a n v) b =
      if a ≤ b ∧ b < a + n then v.extractLsb' (8 * (b - a)) 8 else Memory.read m b := by
  induction n with
  | zero => rw [if_neg (by omega)]; rfl
  | succ k ih =>
    simp only [Memory.writeBytes]
    rw [read_write, ih]
    by_cases hb : b = a + k
    · rw [if_pos hb, if_pos (by omega), hb, Nat.add_sub_cancel_left]
    · rw [if_neg hb]
      by_cases h : a ≤ b ∧ b < a + k
      · rw [if_pos h, if_pos (by omega)]
      · rw [if_neg h, if_neg (by omega)]

theorem Memory.wf_writeBytes (m : Memory) (a n : Nat) (v : Word) (h : Memory.wf m) :
    Memory.wf (Memory.writeBytes m a n v) := by
  induction n with
  | zero => exact h
  | succ k ih => exact wf_write _ _ _ ih

theorem Memory.mem_writeBytes (m : Memory) (a n : Nat) (v : Word) (c : Host.Cell)
    (h : c ∈ Memory.writeBytes m a n v) : (a ≤ c.1 ∧ c.1 < a + n) ∨ c ∈ m := by
  induction n with
  | zero => exact Or.inr h
  | succ k ih =>
    rcases mem_write _ _ _ _ h with rfl | h
    · exact Or.inl ⟨by simp, by simp⟩
    · rcases ih h with h | h
      · exact Or.inl ⟨h.1, by omega⟩
      · exact Or.inr h

/-- The bits of a byte after one of them is written. -/
theorem getLsbD_putBit (b : Byte) (k j : Nat) (v : Bool) (hk : k < 8) (hj : j < 8) :
    (putBit b k v).getLsbD j = if j = k then v else b.getLsbD j := by
  cases v <;> by_cases h : j = k <;> simp [putBit, h, hk, hj] <;> omega

theorem Memory.wf_setBit (m : Memory) (i : Nat) (v : Bool) (h : Memory.wf m) : Memory.wf (Memory.setBit m i v) :=
  wf_write _ _ _ h

theorem Memory.mem_setBit (m : Memory) (i : Nat) (v : Bool) (c : Host.Cell) (h : c ∈ Memory.setBit m i v) :
    c.1 = i / 8 ∨ c ∈ m :=
  (mem_write _ _ _ _ h).imp_left fun e => by rw [e]

/-- A byte that does not hold bit `i` is left alone by a write of bit `i`. -/
theorem Memory.read_setBit_other (m : Memory) (i a : Nat) (v : Bool) (h : a ≠ i / 8) :
    Memory.read (Memory.setBit m i v) a = Memory.read m a := read_write_other _ _ _ _ h

/-- What every bit is after one bit is written. -/
theorem Memory.bit_setBit (m : Memory) (i j : Nat) (v : Bool) :
    Memory.bit (Memory.setBit m i v) j = if j = i then v else Memory.bit m j := by
  unfold Memory.bit Memory.setBit
  by_cases hb : j / 8 = i / 8
  · rw [hb, read_write_same, getLsbD_putBit _ _ _ _ (by omega) (by omega)]
    by_cases h : j = i
    · rw [if_pos (by rw [h]), if_pos h]
    · rw [if_neg (by omega), if_neg h]
  · rw [read_write_other _ _ _ _ hb, if_neg (by rintro rfl; exact hb rfl)]

/-- A range's value fits its length. -/
theorem Memory.raw_lt (m : Memory) (s l : Nat) : Memory.raw m s l < 2 ^ l := by
  induction l with
  | zero => simp [Memory.raw]
  | succ k ih =>
    simp only [Memory.raw]
    have : (Memory.bit m (s + k)).toNat ≤ 1 := by cases Memory.bit m (s + k) <;> simp
    calc _ < 2 ^ k + 1 * 2 ^ k := Nat.add_lt_add_of_lt_of_le ih (Nat.mul_le_mul_right _ this)
      _ = 2 ^ (k + 1) := by ring

/-- The bits of a range's value are the range's bits. -/
theorem Memory.testBit_raw (m : Memory) (s l j : Nat) :
    (Memory.raw m s l).testBit j = (decide (j < l) && Memory.bit m (s + j)) := by
  induction l with
  | zero => simp [Memory.raw]
  | succ k ih =>
    simp only [Memory.raw]
    rw [Nat.add_comm, Nat.mul_comm, Nat.testBit_two_pow_mul_add _ (raw_lt m s k)]
    rcases Nat.lt_trichotomy j k with h | h | h
    · rw [if_pos h, ih]; simp [h, Nat.lt_succ_of_lt h]
    · subst h; cases Memory.bit m (s + j) <;> simp
    · rw [if_neg (by omega)]
      have hz : (Memory.bit m (s + k)).toNat.testBit (j - k) = false :=
        Nat.testBit_lt_two_pow (lt_of_le_of_lt (by cases Memory.bit m (s + k) <;> simp : _ ≤ 1)
          (Nat.one_lt_two_pow (by omega)))
      rw [hz]; simp; omega

/-- A little-endian value fits its bytes. -/
theorem Memory.readBytes_lt (m : Memory) (a n : Nat) : Memory.readBytes m a n < 2 ^ (8 * n) := by
  induction n with
  | zero => simp [Memory.readBytes]
  | succ k ih =>
    simp only [Memory.readBytes]
    have : (Memory.read m (a + k)).toNat ≤ 255 := by have := (Memory.read m (a + k)).isLt; omega
    calc _ < 2 ^ (8 * k) + 255 * 2 ^ (8 * k) := Nat.add_lt_add_of_lt_of_le ih (Nat.mul_le_mul_right _ this)
      _ = 2 ^ (8 * (k + 1)) := by ring

/-- The bits of a little-endian value are the buffer's bits from bit 8a up: byte order and bit order agree. -/
theorem Memory.testBit_readBytes (m : Memory) (a n j : Nat) :
    (Memory.readBytes m a n).testBit j = (decide (j < 8 * n) && Memory.bit m (8 * a + j)) := by
  induction n with
  | zero => simp [Memory.readBytes]
  | succ k ih =>
    simp only [Memory.readBytes]
    rw [Nat.add_comm, Nat.mul_comm, Nat.testBit_two_pow_mul_add _ (readBytes_lt m a k)]
    by_cases h : j < 8 * k
    · rw [if_pos h, ih]; simp [h, show j < 8 * (k + 1) by omega]
    · rw [if_neg h]
      by_cases h2 : j < 8 * (k + 1)
      · have e1 : (8 * a + j) / 8 = a + k := by omega
        have e2 : (8 * a + j) % 8 = j - 8 * k := by omega
        simp [h2, Memory.bit, e1, e2, BitVec.getLsbD]
      · have : (Memory.read m (a + k)).toNat.testBit (j - 8 * k) = false :=
          Nat.testBit_lt_two_pow (lt_of_lt_of_le (Memory.read m (a + k)).isLt
            (Nat.pow_le_pow_right (by decide) (by omega)))
        simp [h2, this]

end Sys2Proof.Machine
end

