-- ==== Sys2Proof/Laws/PerInstr.lean ====
section
/-! SUPPORT. Per instruction: the word of a command is of its opcode map row. -/

namespace Sys2Proof.Laws

/-- The encoded word carries the command's opcode, and matches the row of that opcode under the row's mask (rule R99). -/
def TableRow.Statement (i : Instr) : Prop :=
  opcodeOf (encode i) = i.opcode ∧
    ∃ row, tableRow i.opcode = some row ∧ encode i &&& row.2 = row.1

theorem TableRow.nop : TableRow.Statement .nop := by
  exact ⟨by decide, _, rfl, by decide⟩

theorem TableRow.clrerr : TableRow.Statement .clrerr := by
  exact ⟨by decide, _, rfl, by decide⟩

theorem TableRow.alloc (n : BitVec 16) : TableRow.Statement (.alloc n) := by
  exact ⟨by simp [encode], _, rfl, formatI_mask_v ..⟩

theorem TableRow.setbit (idx : BitVec 16) (v : Bool) : TableRow.Statement (.setbit idx v) := by
  exact ⟨by simp [encode], _, rfl, formatI_mask ..⟩

theorem TableRow.getbit (idx : BitVec 16) : TableRow.Statement (.getbit idx) := by
  exact ⟨by simp [encode], _, rfl, formatI_mask_v ..⟩

theorem TableRow.getrange (l : BitVec 7) (k : Kind) (w : Width) : TableRow.Statement (.getrange l k w) := by
  exact ⟨by simp [encode], _, rfl, formatR_mask ..⟩

theorem TableRow.getnext (l : BitVec 7) (k : Kind) (w : Width) : TableRow.Statement (.getnext l k w) := by
  exact ⟨by simp [encode], _, rfl, formatR_mask ..⟩

theorem TableRow.crcgen : TableRow.Statement .crcgen := by
  exact ⟨by decide, _, rfl, by decide⟩

theorem TableRow.framechk : TableRow.Statement .framechk := by
  exact ⟨by decide, _, rfl, by decide⟩

theorem TableRow.setch (c : BitVec 4) (m : BitVec 2) : TableRow.Statement (.setch c m) := by
  exact ⟨by simp [encode], _, rfl, formatM_mask ..⟩

theorem TableRow.setenc (e : BitVec 4) (m : BitVec 2) : TableRow.Statement (.setenc e m) := by
  exact ⟨by simp [encode], _, rfl, formatM_mask ..⟩

theorem TableRow.attach (b : BitVec 2) (t : BitVec 4) (a : BitVec 7) : TableRow.Statement (.attach b t a) := by
  exact ⟨by simp [encode], _, rfl, formatA_mask ..⟩

theorem TableRow.setid (x : BitVec 8) : TableRow.Statement (.setid x) := by
  exact ⟨by simp [encode], _, rfl, formatB_mask ..⟩

theorem TableRow.layout : TableRow.Statement .layout := by
  exact ⟨by decide, _, rfl, by decide⟩

theorem TableRow.cfgclr : TableRow.Statement .cfgclr := by
  exact ⟨by decide, _, rfl, by decide⟩

theorem TableRow.fxch (c : BitVec 4) : TableRow.Statement (.fxch c) := by
  exact ⟨by simp [encode], _, rfl, formatF_mask_part ..⟩

theorem TableRow.fxenc (e : BitVec 4) (p : EncPart) : TableRow.Statement (.fxenc e p) := by
  exact ⟨by simp [encode], _, rfl, formatF_mask ..⟩

theorem TableRow.fxper (b : BitVec 2) (slot : BitVec 4) : TableRow.Statement (.fxper b slot) := by
  exact ⟨by simp [encode], _, rfl, formatP_mask ..⟩

end Sys2Proof.Laws
end

