-- ==== Sys2Proof/Laws/Step.lean ====
section
/-! SUPPORT. What one step can do, said once: nothing, a reset, a read, a command, an illegal word, or a write. -/

namespace Sys2Proof.Machine

/-- The error a failing host access records (rules R62 to R65). -/
def accessError (e : Code) : Prop := e = .busacc ∨ e = .oob

theorem step_outcomes (s t : State) (h : step s = .next t) :
    (s.inputs = [] ∧ t = s) ∨
    (∃ rest, s.inputs = .reset :: rest ∧ t = { s with toBlock := Block.reset, inputs := rest }) ∨
    (∃ rest a n, s.inputs = .read a n :: rest ∧
      ((∃ v, t = { s with inputs := rest, rdata := v }) ∨
        ∃ e, accessError e ∧ t = State.withError e { s with inputs := rest, rdata := 0#32 })) ∨
    (∃ rest w i, s.inputs = .write s.blockBase 4 w :: rest ∧ decode w = .ok i ∧
      exec i { s with inputs := rest, cmdLast := w } = .next t) ∨
    (∃ rest w e, s.inputs = .write s.blockBase 4 w :: rest ∧ decode w = .error e ∧
      t = State.withError .illegal { s with inputs := rest, cmdLast := w }) ∨
    ∃ rest a n d, s.inputs = .write a n d :: rest ∧
      (t = { s with inputs := rest, arg0 := d } ∨ t = { s with inputs := rest, cursor := d } ∨
        (∃ j, bufCheck s j n = none ∧
          t = { s with inputs := rest, mem := Memory.writeBytes s.mem j n d, valid := false }) ∨
        ∃ e, accessError e ∧ t = State.withError e { s with inputs := rest }) := by
  rcases step_cases _ _ h with h | ⟨x, rest, hx, hp⟩
  · exact .inl h
  · cases x with
    | reset => exact .inr (.inl ⟨rest, hx, by simpa [perform, platformReset] using hp.symm⟩)
    | read a n => exact .inr (.inr (.inl ⟨rest, a, n, hx, (hostRead_cases _ _ _ _ hp).2⟩))
    | write a n d =>
      rcases (hostWrite_cases _ _ _ _ _ hp).2 with ⟨rfl, rfl, hr⟩ | h | h | ⟨j, hj, h⟩ | h
      · rcases runCommand_cases _ _ _ hr with ⟨i, hi, he⟩ | ⟨e, he, h⟩
        · exact .inr (.inr (.inr (.inl ⟨rest, d, i, hx, hi, he⟩)))
        · exact .inr (.inr (.inr (.inr (.inl ⟨rest, d, e, hx, he, h⟩))))
      · exact .inr (.inr (.inr (.inr (.inr ⟨rest, a, n, d, hx, .inl h⟩))))
      · exact .inr (.inr (.inr (.inr (.inr ⟨rest, a, n, d, hx, .inr (.inl h)⟩))))
      · exact .inr (.inr (.inr (.inr (.inr ⟨rest, a, n, d, hx, .inr (.inr (.inl ⟨j, hj, h⟩))⟩))))
      · exact .inr (.inr (.inr (.inr (.inr ⟨rest, a, n, d, hx, .inr (.inr (.inr h))⟩))))

end Sys2Proof.Machine
end

