-- ==== Sys2Proof/Tests/Slice0.lean ====
section
/-! SUPPORT. Tests whose expected values are those of 95_test_vectors.md (named in each group) or were written out from
the rules, and for each statement with hypotheses a witness that meets them. -/

namespace Sys2Proof.Tests

open Sys2Proof Sys2Proof.Machine

/-! ### States -/

/-- Buffer B4 of 40_bitbuffer.md. -/
def b4 : State := { State.reset with len := 4#16, mem := [(0, 0xB4#8), (1, 0x5A#8), (2, 0xF0#8), (3, 0x8F#8)] }

/-- The bytes of frame F12 of 43_field_extract.md. -/
def f12Bytes : Memory :=
  [(0, 0xA5#8), (1, 0xFF#8), (2, 0xDF#8), (3, 0xFF#8), (4, 0x1F#8), (5, 0xD4#8), (6, 0x30#8), (9, 0x17#8), (10, 0xF6#8),
    (11, 0x7E#8)]

/-- F12 configured and loaded, before LAYOUT and FRAMECHK. -/
def f12Open : State :=
  { State.reset with
    len := 12#16
    mem := f12Bytes
    ident := 0xA5#8
    chmode := (Vector.replicate 12 ChMode.off |>.set 0 .analog |>.set 1 .digital)
    encmode := (Vector.replicate 6 EncMode.off |>.set 0 .quadrature)
    ptab := Vector.replicate 3 [] |>.set 1 [⟨5#4, 0x29#7, 9#16⟩] }

/-- F12 after LAYOUT, before FRAMECHK. -/
def f12Loaded : State := { f12Open with tlen := 12#7, lock := true }

/-- F12 after FRAMECHK. -/
def f12 : State := { f12Loaded with valid := true, fres := .pass, crc := 0xF67E#16, crcok := true }

/-- A checked frame `A5 10 02 75 5D` of rule R143's examples, no configuration locked. -/
def frame5 : State :=
  { State.reset with len := 5#16, mem := [(0, 0xA5#8), (1, 0x10#8), (2, 0x02#8), (3, 0x75#8), (4, 0x5D#8)], ident := 0xA5#8 }

/-- Bus 1 with its 16 types attached. -/
def fullBus : State :=
  { State.reset with
    arg0 := 8#32
    ptab := Vector.replicate 3 [] |>.set 0
      ((List.range 16).map fun k => ⟨BitVec.ofNat 4 k, BitVec.ofNat 7 k, 8#16⟩) }

/-- All channels analog, all encoders active, one peripheral of `r` reply bits (vector L1-1). -/
def widest (r : BitVec 16) : State :=
  { State.reset with
    chmode := Vector.replicate 12 .analog
    encmode := Vector.replicate 6 .quadrature
    ptab := Vector.replicate 3 [] |>.set 0 [⟨1#4, 1#7, r⟩] }

/-- The state after a step whose next input is `x`. -/
def after (x : Input) (s : State) : Option State :=
  match step { s with inputs := [x] } with
  | .next t => some t
  | .fault _ => none
  | .refused _ => none

/-- The state after the command word `w`. -/
def run (w : Nat) (s : State) : Option State :=
  match step (s.withFetchWord 32 w) with
  | .next t => some t
  | .fault _ => none
  | .refused _ => none

/-- A command ends in a state of which `p` holds. -/
def ends (i : Instr) (s : State) (p : State → Bool) : Bool :=
  match exec i s with
  | .next t => p t
  | .fault _ => false
  | .refused _ => false

/-! ### Decoding: words of 95_test_vectors.md, and words written out from the formats of 30_encoding.md -/

theorem test_decode_control : decodeTableWord 32 0x00000000 = some .nop ∧ decodeTableWord 32 0x00000001 = some .clrerr ∧
    decodeTableWord 32 0x00000100 = none ∧ decodeTableWord 32 0x00000101 = none := by decide

theorem test_decode_alloc : decodeTableWord 32 0b0000000100000001_0000000_0_00000010 = some (.alloc 257) ∧
    decodeTableWord 32 0x00040102 = none := by decide

theorem test_decode_setbit : decodeTableWord 32 0b0000000000001000_0000000_1_00000011 = some (.setbit 8 true) ∧
    decodeTableWord 32 0x001F0003 = some (.setbit 31 false) ∧ decodeTableWord 32 0x00000303 = none := by decide

theorem test_decode_getbit : decodeTableWord 32 0x001F0004 = some (.getbit 31) ∧
    decodeTableWord 32 0x00000104 = none := by decide

theorem test_decode_getrange :
    decodeTableWord 32 0b000000000000_01_00_0_0001000_00000101 = some (.getrange 8 .u .w16) ∧
    decodeTableWord 32 0x000A2005 = some (.getrange 32 .f .w32) ∧ decodeTableWord 32 0x00030805 = none ∧
    decodeTableWord 32 0x00060805 = none ∧ decodeTableWord 32 0x00008805 = none := by decide

theorem test_decode_getnext : decodeTableWord 32 0x00040C06 = some (.getnext 12 .u .w16) ∧
    decodeTableWord 32 0b000000000000_11_01_0_1111111_00000110 = some (.getnext 127 .s .w64) := by decide

theorem test_decode_checksum : decodeTableWord 32 0x00000008 = some .crcgen ∧
    decodeTableWord 32 0x00000009 = some .framechk := by decide

theorem test_decode_modes : decodeTableWord 32 0b000000000000000000_01_0001_00010000 = some (.setch 1 1) ∧
    decodeTableWord 32 0x00003D10 = some (.setch 13 3) ∧ decodeTableWord 32 0x00002611 = some (.setenc 6 2) ∧
    decodeTableWord 32 0x00005110 = none := by decide

theorem test_decode_attach : decodeTableWord 32 0b00000000000_0101001_0011_01_00010010 = some (.attach 1 3 41) ∧
    decodeTableWord 32 0x000A5612 = some (.attach 2 5 0x29) := by decide

theorem test_decode_setid : decodeTableWord 32 0b0000000000000000_10100101_00010011 = some (.setid 0xA5) := by decide

theorem test_decode_layout : decodeTableWord 32 0x00000014 = some .layout ∧
    decodeTableWord 32 0x00000015 = some .cfgclr := by decide

theorem test_decode_fields : decodeTableWord 32 0x00000118 = some (.fxch 1) ∧ decodeTableWord 32 0x00001118 = none ∧
    decodeTableWord 32 0b0000000000000000000_1_0001_00011001 = some (.fxenc 1 .vel) ∧
    decodeTableWord 32 0x00000119 = some (.fxenc 1 .pos) ∧
    decodeTableWord 32 0b000000000000000000_0000_10_00011010 = some (.fxper 2 0) := by decide

theorem test_decode_undefined_opcodes :
    ([0x07, 0x0A, 0x0F, 0x16, 0x17, 0x1B, 0xFF].map (decodeTableWord 32)).all (· == none) = true := by decide

theorem test_encode : encode (.attach 1 3 41) = 0x000A4D12#32 ∧ encode (.getrange 32 .s .w32) = 0x00092005#32 ∧
    encode (.fxenc 1 .vel) = 0x00001119#32 ∧ encode (.setbit 8 true) = 0x00080103#32 := by decide

/-! ### WellFormed: kind F needs a width of 32 or 64 -/

theorem test_wellFormed_refuses_narrow_float :
    (Instr.getrange 8 .f .w8).wellFormed = false ∧ (Instr.getrange 8 .f .w16).wellFormed = false ∧
      (Instr.getnext 8 .f .w8).wellFormed = false ∧ (Instr.getnext 8 .f .w16).wellFormed = false := by decide

/-! ### Control and BitBuffer (vectors L2-1 and L2-6) -/

theorem test_nop_keeps_sticky : (run 0x0 { b4 with code := .oob, sticky := true }).map statusWord =
      some 0x010#32 := by decide

theorem test_clrerr : (run 0x1 { b4 with code := .oob, sticky := true }).map statusWord = some 0x000#32 := by decide

theorem test_alloc_past_capacity : (run 0x01010002 State.reset).map statusWord = some 0x012#32 := by decide

theorem test_alloc_clears : (run 0x00040002 { b4 with cursor := 9#32, valid := true }).map
    (fun t => (t.mem, t.len, t.cursor, t.valid)) = some ([], 4#16, 0#32, false) := by decide

theorem test_setbit : (run 0x00080103 b4).map (fun t => Memory.readBytes t.mem 0 4) = some 0x8FF05BB4 := by decide

theorem test_clrbit_top : (run 0x001F0003 b4).map (fun t => Memory.readBytes t.mem 0 4) = some 0x0FF05AB4 := by decide

theorem test_getbit : (run 0x00020004 b4).map (·.result) = some 1#64 ∧
    (run 0x00200004 b4).map statusWord = some 0x012#32 := by decide

theorem test_getrange_kinds : (run 0x00040805 { b4 with arg0 := 4#32 }).map (·.result) = some 0xAB#64 ∧
    (run 0x00010805 { b4 with arg0 := 4#32 }).map (·.result) = some 0xFFFFFFFFFFFFFFAB#64 ∧
    (run 0x00050805 { b4 with arg0 := 4#32 }).map (·.result) = some 0xAB#64 ∧
    (run 0x00092005 b4).map (·.result) = some 0xFFFFFFFF8FF05AB4#64 := by decide

theorem test_getrange_errors : (run 0x00000305 { b4 with arg0 := 30#32 }).map statusWord = some 0x012#32 ∧
    (run 0x00000105 { b4 with arg0 := 0xFFFFFFFF#32 }).map statusWord = some 0x012#32 ∧
    (run 0x00000905 b4).map statusWord = some 0x013#32 ∧
    (run 0x00000005 { b4 with arg0 := 32#32 }).map statusWord = some 0x0#32 := by
  decide

theorem test_getnext : (run 0x00040C06 { b4 with cursor := 12#32 }).map (fun t => (t.result, t.cursor)) =
    some (0xF05#64, 24#32) := by decide

theorem test_getnext_sign : (run 0x00010806 { b4 with cursor := 24#32 }).map (fun t => (t.result, t.cursor)) =
    some (0xFFFFFFFFFFFFFF8F#64, 32#32) := by decide

/-! ### Checksum (vectors L2-3) -/

set_option maxRecDepth 8000 in
theorem test_crc16 : crc16 [] = 0x0000#16 ∧ crc16 [0x80#8] = 0x9188#16 ∧ crc16 [0xA5#8, 0x10#8, 0x02#8] = 0x755D#16 ∧
    crc16 [0x31#8, 0x32#8, 0x33#8, 0x34#8, 0x35#8, 0x36#8, 0x37#8, 0x38#8, 0x39#8] = 0x31C3#16 := by decide

set_option maxRecDepth 8000 in
theorem test_crcgen : (run 0x8 frame5).map (fun t => (t.crc, t.crcok, t.valid)) =
      some (0x755D#16, true, false) := by decide

set_option maxRecDepth 8000 in
theorem test_framechk_outcomes : (run 0x9 frame5).map statusWord = some 0x2A0#32 ∧
    (run 0x9 { frame5 with ident := 0xA4#8 }).map statusWord = some 0x440#32 := by decide

theorem test_framechk_short : (run 0x9 { frame5 with len := 1#16 }).map statusWord = some 0x600#32 := by decide

/-! ### Layout configuration (vectors L1-1, L1-6 and L2-4) -/

theorem test_setch : (run 0x00001110 State.reset).map chmodeWord = some 0x1#32 ∧
    (run 0x00003110 State.reset).map statusWord = some 0x01B#32 := by decide

theorem test_setch_then_layout : ((run 0x00001110 State.reset).bind (run 0x14)).map (·.tlen) = some 5#7 ∧
    ((run 0x00002210 State.reset).bind (run 0x14)).map (fun t => (t.chStart 3, chmodeWord t)) = some (9, 0x8#32) := by decide

theorem test_modes_by_name : (run 0x00000110 f12Open).map (fun t => t.chmode[(0 : Fin 12)]) = some .off ∧
    (run 0x00001111 State.reset).map (fun t => t.encmode[(0 : Fin 6)]) = some .quadrature ∧
    (run 0x00002611 State.reset).map (fun t => t.encmode[(5 : Fin 6)]) = some .pwm := by decide

theorem test_setch_priority : (run 0x00003D10 f12Loaded).map (·.code) = some .locked ∧
    (run 0x00003D10 State.reset).map (·.code) = some .range := by decide

theorem test_setenc : (run 0x00002611 State.reset).map encmodeWord = some 0x800#32 ∧
    (run 0x00001711 State.reset).map (·.code) = some .range := by decide

theorem test_attach : (run 0x000A4D12 { State.reset with arg0 := 33#32 }).map (fun t => (ptabWord t 0 0, pcountWord t)) =
    some (0x00210527#32, 0x00000001#32) := by decide

theorem test_attach_seventeenth : (run 0x00190112 fullBus).map (·.code) = some .duptype := by decide

theorem test_setid : (run 0x0000A513 f12).map (fun t => (t.ident, t.valid)) = some (0xA5#8, false) := by decide

theorem test_layout : (run 0x14 (widest 344)).map (fun t => (t.tlen, t.lock)) = some (100#7, true) ∧
    (run 0x14 (widest 345)).map statusWord = some 0x018#32 := by decide

theorem test_layout_order : (run 0x14 f12Open).map (·.tlen) = some 12#7 ∧ f12Open.chStart 2 = 20 ∧
    f12Open.encStart 1 = 21 ∧
    f12Open.pStart 1 0 = 69 := by decide

theorem test_cfgclr : (run 0x15 f12).map (fun t => (t.lock, t.tlen, chmodeWord t, pcountWord t, t.valid)) =
    some (false, 0#7, 0#32, 0#32, false) := by decide

/-! ### Field extraction (vectors L2-5) -/

theorem test_fxch : (run 0x00000118 f12).map (fun t => (t.result, t.cursor)) = some (0xFFF#64, 20#32) ∧
    (run 0x00000218 f12).map (fun t => (t.result, t.cursor)) = some (0x1#64, 21#32) := by decide

theorem test_fxch_errors : (run 0x00000318 f12).map (·.code) = some .notcfg ∧
    (run 0x00000118 f12Loaded).map (·.code) = some .noframe := by decide

theorem test_fxenc : (run 0x00000119 f12).map (fun t => (t.result, t.cursor)) = some (0xFFFFFFFFFFFFFFFE#64, 37#32) ∧
    (run 0x00001119 f12).map (fun t => (t.result, t.cursor)) = some (0x186A0#64, 69#32) := by decide

theorem test_fxper : (run 0x0000021A f12).map (fun t => (t.result, t.cursor)) = some (0x0000000900000045#64, 69#32) ∧
    (run 0x0000001A f12).map (·.code) = some .range := by decide

/-! ### The window (vectors L2-2), registers and the command port -/

theorem test_buffer_reads : (after (.read 0x100 4) b4).map (·.rdata) = some 0x8FF05AB4#32 ∧
    (after (.read 0x102 2) b4).map (·.rdata) = some 0x8FF0#32 ∧
    (after (.read 0x101 2) b4).map statusWord = some 0x01C#32 ∧
    (after (.read 0x104 4) b4).map statusWord = some 0x012#32 ∧
    (after (.read 0x200 4) b4).map statusWord = some 0x01C#32 := by decide

theorem test_buffer_write : (after (.write 0x100 4 0x11223344#32) f12).map (fun t => (Memory.bytes t.mem 0 4, t.valid)) =
    some ([0x44#8, 0x33#8, 0x22#8, 0x11#8], false) := by decide

theorem test_status_is_read_only : (after (.write 0x04 4 0#32) b4).map statusWord = some 0x01C#32 := by decide

theorem test_register_reads : (after (.read 0x04 4) f12).map (·.rdata) = some 0x3A0#32 ∧
    (after (.read 0x80 4) f12).map (·.rdata) = some 0x0009052B#32 ∧
    (after (.read 0x34 4) f12).map (·.rdata) = some 0x000100#32 ∧
    (after (.read 0x38 4) f12).map (·.rdata) = some 256#32 := by decide

theorem test_illegal_word_is_recorded : (run 0x00000007 f12).map (fun t => (t.code, t.sticky, t.cmdLast)) =
    some (.illegal, true, 0x00000007#32) := by decide

theorem test_withFetchWord : (State.reset.withFetchWord 32 0x0000A513).inputs = [.write 0 4 0x0000A513#32] ∧
    (run 0x0000A513 State.reset).map (·.ident) = some 0xA5#8 := by decide

theorem test_assembly : asmText (.getrangeAt 4 8 .s .w16) = some "getrange.at 4, 8, s16" ∧
    asmText (.command (.fxenc 1 .vel)) = some "fxenc 1, vel" := by decide

/-! ### Witnesses: for each statement with hypotheses, states and operands that meet them, clause by clause, at the
edges of their ranges -/

/-- A command answers a next state with code OK and a value of `f` other than before. -/
def changes {α : Type} [DecidableEq α] (i : Instr) (s : State) (f : State → α) : Bool :=
  ends i s fun t => t.code == .ok && !decide (f t = f s)

/-- The invariants of a state, item by item. -/
abbrev InvariantItems (s : State) : Prop :=
  (Config.bufCapMin ≤ s.bufCap ∧ s.bufCap ≤ Config.bufCapMax) ∧ s.len.toNat ≤ s.bufCap ∧
    (∀ b : Fin 3, (s.ptab[b].map (fun p => p.type)).Nodup) ∧ (∀ b : Fin 3, (s.ptab[b].map (fun p => p.addr)).Nodup) ∧
    (∀ b : Fin 3, s.pcount b ≤ 16) ∧ (∀ b : Fin 3, ∀ p ∈ s.ptab[b], p.rlen ≠ 0#16) ∧
    (s.lock = true → s.tlen.toNat = s.layoutTlen ∧ s.layoutTlen ≤ Config.maxTlen) ∧ (s.lock = false → s.tlen = 0#7) ∧
    (s.valid = true → 2 ≤ s.len.toNat ∧ Memory.read s.mem 0 = s.ident ∧ crc16 s.payload = s.trailer)

theorem invariant_of_items (s : State) (h : InvariantItems s) : Invariant s :=
  let ⟨h1, h2, h3, h4, h5, h6, h7, h8, h9⟩ := h
  ⟨h1, h2, h3, h4, h5, h6, h7, h8, h9⟩

set_option maxRecDepth 8000 in
theorem witness_invariant_f12 : Invariant f12 := invariant_of_items _ (by decide)

theorem witness_invariant_f12Loaded : Invariant f12Loaded := invariant_of_items _ (by decide)

theorem witness_invariant_fullBus : Invariant fullBus := invariant_of_items _ (by decide)

theorem witness_DecodeOfEncode : (Instr.getrange 127 .f .w64).wellFormed = true ∧
    (Instr.getnext 0 .f .w32).wellFormed = true ∧
    (Instr.getrange 127 .s .w8).wellFormed = true ∧ (Instr.attach 3 15 127).wellFormed = true := by decide

theorem witness_EncodeOfDecode : decode 0x000D7F05#32 = .ok (.getrange 127 .s .w64) ∧
    decode 0x001FFF12#32 = .ok (.attach 3 15 127) := by decide

theorem witness_IllegalWordsAreExactlyThese : Illegal 0x00060805#32 ∧ Illegal 0xFFFFFFFF#32 ∧
    (State.reset.withFetchWord 32 0x00060805).inputs = .write State.reset.blockBase 4 0x00060805#32 :: [] :=
  ⟨⟨.narrowFloat, by decide⟩, ⟨.undefinedOpcode 0xFF#8, by decide⟩, rfl⟩

theorem witness_PseudoInstructionsExpand : ([] : List Byte).length ≤ 65535 ∧
    (List.replicate 65535 0xFF#8).length ≤ 65535 := by
  rw [List.length_replicate]; decide

theorem witness_OverlongFrameExpands : 65535 < (List.replicate 65536 0xFF#8).length := by
  rw [List.length_replicate]; decide

theorem witness_StepRunsTheDecodedCommand : decode 0x00000118#32 = .ok (.fxch 1) ∧
    (f12.withFetchWord 32 0x00000118).inputs = .write f12.blockBase 4 0x00000118#32 :: [] := by decide

theorem witness_CmdReadsTheLastWordWritten : (∃ e, decode 0x00000007#32 = .error e) ∧
    decode 0x00000118#32 = .ok (.fxch 1) ∧
    (f12.withFetchWord 32 0x00000007).inputs = .write f12.blockBase 4 0x00000007#32 :: [] :=
  ⟨⟨.undefinedOpcode 0x07#8, by decide⟩, by decide, by decide⟩

theorem witness_IdleStepChangesNothing : State.reset.inputs = [] := by decide

theorem witness_AccessBelowTheWindowStops : 0xFFF < ({ b4 with blockBase := 0x1000 } : State).blockBase ∧
    ({ b4 with inputs := [.read 0xFFF 4] } : State).inputs = .read 0xFFF 4 :: [] ∧
    ({ b4 with inputs := [.write 0xFFF 4 1#32] } : State).inputs = .write 0xFFF 4 1#32 :: [] := by decide

theorem witness_ResetGivesEveryPieceItsValue : ({ f12 with inputs := [.reset] } : State).inputs =
      .reset :: [] := by decide

theorem witness_ResetLeavesTheHostSide : (after .reset f12).map (·.rdata) = some f12.rdata ∧
    ({ f12 with inputs := [.reset] } : State).inputs = .reset :: [] := by decide

theorem witness_StepKeepsTheParameters : step f12 = .next f12 ∧
    after (.write 0x08 4 7#32) b4 = some { b4 with arg0 := 7#32 } := ⟨rfl, by decide⟩

/-- One access for each outcome of `BufferWindowAccess`, on B4 with LEN = 4 and BUF_CAP = 256: its width, its alignment
and its end against BUF_CAP and LEN. -/
theorem witness_BufferWindowAccess : (3 ≠ 1 ∧ 3 ≠ 2 ∧ 3 ≠ 4) ∧ 1 % 2 ≠ 0 ∧ b4.bufCap < 256 + 1 ∧
    (255 % 1 = 0 ∧ 255 + 1 ≤ b4.bufCap ∧ b4.len.toNat < 255 + 1) ∧ (4 + 1 ≤ b4.bufCap ∧ b4.len.toNat < 4 + 1) ∧
    (0 % 4 = 0 ∧ 0 + 4 ≤ b4.bufCap ∧ 0 + 4 ≤ b4.len.toNat) ∧ 3 + 1 ≤ b4.len.toNat ∧
    ({ b4 with inputs := [.read (b4.blockBase + 0x100 + 0) 4] } : State).inputs =
      .read (b4.blockBase + 0x100 + 0) 4 :: [] ∧
    ({ b4 with inputs := [.write (b4.blockBase + 0x100 + 3) 1 9#32] } : State).inputs =
      .write (b4.blockBase + 0x100 + 3) 1 9#32 :: [] := by decide

/-- One offset and width for each outcome of `RegisterFileAccess`. -/
theorem witness_RegisterFileAccess : 0xFF < 0x100 ∧ 0x06 % 4 ≠ 0 ∧ (0xFC ≠ 0x00 ∧ 0xFC ≠ 0x08 ∧ 0xFC ≠ 0x20) ∧
    ({ b4 with inputs := [.read (b4.blockBase + 0x0C) 4] } : State).inputs = .read (b4.blockBase + 0x0C) 4 :: [] ∧
    ({ b4 with inputs := [.read (b4.blockBase + 0x3C) 4] } : State).inputs = .read (b4.blockBase + 0x3C) 4 :: [] ∧
    ({ b4 with inputs := [.write (b4.blockBase + 0xFC) 4 1#32] } : State).inputs =
      .write (b4.blockBase + 0xFC) 4 1#32 :: [] ∧
    ({ b4 with inputs := [.write (b4.blockBase + 0x08) 4 1#32] } : State).inputs =
      .write (b4.blockBase + 0x08) 4 1#32 :: [] ∧
    ({ b4 with inputs := [.write (b4.blockBase + 0x20) 4 1#32] } : State).inputs =
      .write (b4.blockBase + 0x20) 4 1#32 :: [] := by
  decide

theorem witness_RegistersReadTheirState : State.reset.bufCap < 2 ^ 32 := by decide

theorem witness_PeripheralRegistersReadTheirEntries : (∀ b : Fin 3, fullBus.pcount b ≤ 16) ∧
    fullBus.ptab[(0 : Fin 3)][15]? = some ⟨15#4, 15#7, 8#16⟩ ∧ fullBus.pcount 1 ≤ 0 ∧
    f12.ptab[(1 : Fin 3)][0]? = some ⟨5#4, 0x29#7, 9#16⟩ ∧ f12.pcount 1 ≤ 1 := by decide

theorem witness_WindowAndBitSpaceAgree : 0 % 4 = 0 ∧ 0 + 4 ≤ b4.bufCap ∧ 0 + 4 ≤ b4.len.toNat ∧ 8 * 4 ≤ widthBits .w32 ∧
    8 * 1 ≤ widthBits .w8 ∧ 3 + 1 ≤ b4.len.toNat ∧
    ({ b4 with inputs := [.read (b4.blockBase + 0x100 + 0) 4] } : State).inputs =
      .read (b4.blockBase + 0x100 + 0) 4 :: [] ∧
    ({ b4 with inputs := [.write (b4.blockBase + 0x100 + 0) 4 1#32] } : State).inputs =
      .write (b4.blockBase + 0x100 + 0) 4 1#32 :: [] := by decide

theorem witness_ControlCommands : opcodeOf 0x00000000#32 = 0x00#8 ∧ opcodeOf 0x00000100#32 = 0x00#8 ∧
    (0x00000100#32).extractLsb' 8 24 ≠ 0#24 ∧ opcodeOf 0x80000001#32 = 0x01#8 ∧
    (0x80000001#32).extractLsb' 8 24 ≠ 0#24 := by decide

theorem witness_AllocClearsTheBuffer : State.reset.bufCap < (257#16).toNat ∧ (256#16).toNat ≤ State.reset.bufCap ∧
    opcodeOf 0x01000002#32 = 0x02#8 ∧ (0x01000002#32).extractLsb' 8 8 = 0#8 ∧
    (0x01000102#32).extractLsb' 8 8 ≠ 0#8 := by decide

theorem witness_SetbitWritesOneBit : 8 * b4.len.toNat ≤ (32#16).toNat ∧ (31#16).toNat < 8 * b4.len.toNat ∧
    opcodeOf 0x001F0103#32 = 0x03#8 ∧ (0x001F0103#32).extractLsb' 9 7 = 0#7 ∧
    (0x00000303#32).extractLsb' 9 7 ≠ 0#7 := by decide

theorem witness_GetbitReadsOneBit : 8 * b4.len.toNat ≤ (32#16).toNat ∧ (31#16).toNat < 8 * b4.len.toNat ∧
    opcodeOf 0x001F0004#32 = 0x04#8 ∧ (0x001F0004#32).extractLsb' 8 8 = 0#8 ∧
    (0x00000104#32).extractLsb' 8 8 ≠ 0#8 := by decide

/-- The words of a format R command: K = 3, a legal one, and one illegal for each reason. -/
theorem witness_rangeWords : (0x00030805#32).extractLsb' 16 2 = 3#2 ∧ opcodeOf 0x00030805#32 = 0x05#8 ∧
    (0x000A2006#32).extractLsb' 16 2 = 2#2 ∧ widthBits .w32 = 8 * 2 ^ ((0x000A2006#32).extractLsb' 18 2).toNat ∧
    (0x000C2005#32).extractLsb' 16 2 = 0#2 ∧ widthBits .w64 = 8 * 2 ^ ((0x000C2005#32).extractLsb' 18 2).toNat ∧
    (0x00010805#32).extractLsb' 16 2 = 1#2 ∧ widthBits .w8 = 8 * 2 ^ ((0x00010805#32).extractLsb' 18 2).toNat ∧
    opcodeOf 0x000A2006#32 = 0x06#8 ∧ (0x000A2006#32).getLsbD 15 = false ∧ (0x000A2006#32).extractLsb' 20 12 = 0#12 ∧
    widthBits .w16 = 8 * 2 ^ ((0x00060805#32).extractLsb' 18 2).toNat ∧ ¬32 ≤ widthBits .w16 ∧
    (0x00008805#32).getLsbD 15 = true := by decide

theorem witness_GetrangeExtractsFromArg0 : (Instr.getrange 8 .f .w16).wellFormed = false ∧
    (Instr.getrange 9 .u .w8).wellFormed = true ∧ widthBits .w8 < (9#7).toNat ∧ (8#7).toNat ≤ widthBits .w8 ∧
    8 * b4.len.toNat < ({ b4 with arg0 := 25#32 } : State).arg0.toNat + (8#7).toNat ∧
    ({ b4 with arg0 := 24#32 } : State).arg0.toNat + (8#7).toNat ≤ 8 * b4.len.toNat ∧
    ({ b4 with arg0 := 32#32 } : State).arg0.toNat + (0#7).toNat ≤ 8 * b4.len.toNat := by decide

theorem witness_GetnextExtractsFromCursor : (Instr.getnext 8 .f .w8).wellFormed = false ∧
    (Instr.getnext 65 .s .w64).wellFormed = true ∧ widthBits .w64 < (65#7).toNat ∧ (8#7).toNat ≤ widthBits .w8 ∧
    8 * b4.len.toNat < ({ b4 with cursor := 25#32 } : State).cursor.toNat + (8#7).toNat ∧
    ({ b4 with cursor := 24#32 } : State).cursor.toNat + (8#7).toNat ≤ 8 * b4.len.toNat ∧
    ({ b4 with cursor := 32#32 } : State).cursor.toNat + (0#7).toNat ≤ 8 * b4.len.toNat := by decide

theorem witness_CrcgenComputesTheChecksum : ({ frame5 with len := 1#16 } : State).len.toNat < 2 ∧
    2 ≤ ({ frame5 with len := 2#16 } : State).len.toNat ∧ opcodeOf 0x00000008#32 = 0x08#8 ∧
    (0x00000008#32).extractLsb' 8 24 = 0#24 ∧ (0x00000108#32).extractLsb' 8 24 ≠ 0#24 := by decide

set_option maxRecDepth 8000 in
theorem witness_FramechkGatesTheFrame : State.reset.len.toNat = 0 ∧
    Memory.read frame5.mem 0 ≠ ({ frame5 with ident := 0xA4#8 } : State).ident ∧
    (({ frame5 with len := 1#16 } : State).len.toNat = 1 ∧ Memory.read frame5.mem 0 = frame5.ident) ∧
    2 ≤ frame5.len.toNat ∧ crc16 ((List.range (frame5.len.toNat - 2)).map (fun j => Memory.read frame5.mem j)) =
      Memory.read frame5.mem (frame5.len.toNat - 2) ++ Memory.read frame5.mem (frame5.len.toNat - 1) ∧
    crc16 [] ≠ Memory.read frame5.mem 0 ++ Memory.read frame5.mem 1 ∧ opcodeOf 0x00000009#32 = 0x09#8 ∧
    (0x00000009#32).extractLsb' 8 24 = 0#24 ∧ (0x00000109#32).extractLsb' 8 24 ≠ 0#24 := by decide

set_option maxRecDepth 8000 in
theorem witness_ChecksumRoundTrip : frame5.len.toNat = [0xA5#8, 0x10#8, 0x02#8].length + 2 ∧
    (∀ j, j < [0xA5#8, 0x10#8, 0x02#8].length → Memory.read frame5.mem j = [0xA5#8, 0x10#8, 0x02#8].getD j 0#8) ∧
    Memory.read frame5.mem 3 = (crc16 [0xA5#8, 0x10#8, 0x02#8]).extractLsb' 8 8 ∧
    Memory.read frame5.mem 4 = (crc16 [0xA5#8, 0x10#8, 0x02#8]).extractLsb' 0 8 ∧
    ({ frame5 with len := 2#16, mem := [] } : State).len.toNat = ([] : List Byte).length + 2 := by decide

set_option maxRecDepth 8000 in
theorem witness_SingleBitDetection : (∃ t, exec .crcgen frame5 = .next t ∧ t.code = .ok ∧ t.crcok = true) ∧
    (0#16).toNat < 8 * frame5.len.toNat ∧ (39#16).toNat < 8 * frame5.len.toNat :=
  ⟨⟨_, rfl, by decide, by decide⟩, by decide, by decide⟩

theorem witness_AllZeroFramePassesWithZeroIdent : State.reset.ident = 0x00#8 ∧
    2 ≤ ({ State.reset with len := 2#16 } : State).len.toNat ∧
    (∀ j, j < ({ State.reset with len := 2#16 } : State).len.toNat → Memory.read State.reset.mem j =
      0x00#8) := by decide

theorem witness_LayoutFieldsAreContiguous : f12.ptab[(1 : Fin 3)][0]? = some ⟨5#4, 0x29#7, 9#16⟩ ∧
    fullBus.ptab[(0 : Fin 3)][15]? = some ⟨15#4, 15#7, 8#16⟩ := by decide

theorem witness_TelemetryLengthFormula : ((∀ c : Fin 12, State.reset.chmode[c] = .off) ∧
    (∀ e : Fin 6, State.reset.encmode[e] = .off) ∧ ∀ b : Fin 3, State.reset.ptab[b] = []) ∧
    (∀ c : Fin 12, (widest 344).chmode[c] = .analog) ∧ (∀ e : Fin 6, (widest 344).encmode[e] ≠ .off) ∧
    ∀ b : Fin 3, ({ widest 344 with ptab := Vector.replicate 3 [] } : State).ptab[b] = [] := by decide

theorem witness_SetchSetsOneMode : f12.lock = true ∧ State.reset.lock = false ∧ (0#4).toNat < 1 ∧ 12 < (13#4).toNat ∧
    1 ≤ (1#4).toNat ∧ (12#4).toNat ≤ 12 ∧ 2#2 ≠ 3#2 ∧ opcodeOf 0x00002C10#32 = 0x10#8 ∧
    (0x00002C10#32).extractLsb' 14 18 = 0#18 ∧ (0x00005110#32).extractLsb' 14 18 ≠ 0#18 := by decide

theorem witness_SetencSetsOneMode : f12.lock = true ∧ State.reset.lock = false ∧ (0#4).toNat < 1 ∧ 6 < (7#4).toNat ∧
    1 ≤ (1#4).toNat ∧ (6#4).toNat ≤ 6 ∧ 2#2 ≠ 3#2 ∧ opcodeOf 0x00002611#32 = 0x11#8 ∧
    (0x00002611#32).extractLsb' 14 18 = 0#18 ∧ (0x00004111#32).extractLsb' 14 18 ≠ 0#18 := by decide

theorem witness_AttachAppendsADescriptor : f12.lock = true ∧ f12Open.lock = false ∧ (2#2).toNat = (1 : Fin 3).val + 1 ∧
    f12Open.arg0.toNat = 0 ∧ 0xFFFF < ({ f12Open with arg0 := 0x10000#32 } : State).arg0.toNat ∧
    0 < ({ f12Open with arg0 := 0xFFFF#32 } : State).arg0.toNat ∧
    ({ f12Open with arg0 := 0xFFFF#32 } : State).arg0.toNat ≤ 0xFFFF ∧
    (∃ p ∈ f12Open.ptab[(1 : Fin 3)], p.type = 5#4) ∧
    ((∀ p ∈ f12Open.ptab[(1 : Fin 3)], p.type ≠ 6#4) ∧ ∃ p ∈ f12Open.ptab[(1 : Fin 3)], p.addr = 0x29#7) ∧
    (∀ p ∈ f12Open.ptab[(1 : Fin 3)], p.addr ≠ 0x2A#7) ∧ opcodeOf 0x000A5612#32 = 0x12#8 ∧
    (0x000A5612#32).extractLsb' 21 11 = 0#11 ∧ (0x00200112#32).extractLsb' 21 11 ≠ 0#11 := by decide

theorem witness_SeventeenthAttachRaisesDuptype : Invariant fullBus ∧ fullBus.lock = false ∧
    (1#2).toNat = (0 : Fin 3).val + 1 ∧ 0 < fullBus.arg0.toNat ∧ fullBus.arg0.toNat ≤ 0xFFFF ∧ fullBus.pcount 0 = 16 :=
  ⟨witness_invariant_fullBus, by decide⟩

theorem witness_SetidProgramsTheIdentity : opcodeOf 0x0000A513#32 = 0x13#8 ∧ (0x0000A513#32).extractLsb' 16 16 = 0#16 ∧
    (0x0001A513#32).extractLsb' 16 16 ≠ 0#16 := by decide

theorem witness_LayoutLocksTheConfiguration : 100 < (widest 345).layoutTlen ∧ (widest 344).layoutTlen ≤ 100 ∧
    opcodeOf 0x00000014#32 = 0x14#8 ∧ (0x00000014#32).extractLsb' 8 24 = 0#24 ∧
    (0x00000114#32).extractLsb' 8 24 ≠ 0#24 := by decide

theorem witness_CfgclrEmptiesTheConfiguration : opcodeOf 0x00000015#32 = 0x15#8 ∧
    (0x00000015#32).extractLsb' 8 24 = 0#24 ∧ (0x00000115#32).extractLsb' 8 24 ≠ 0#24 := by decide

theorem witness_FxchReadsTheChannelField : (0#4).toNat < 1 ∧ 12 < (13#4).toNat ∧ (2#4).toNat = (1 : Fin 12).val + 1 ∧
    State.reset.lock = false ∧ f12.chmode[(2 : Fin 12)] = .off ∧
    (f12Loaded.lock = true ∧ f12Loaded.chmode[(1 : Fin 12)] ≠ .off ∧ f12Loaded.valid = false) ∧
    (f12.lock = true ∧ f12.chmode[(1 : Fin 12)] ≠ .off ∧ f12.valid = true) ∧
    8 * ({ f12 with len := 2#16 } : State).len.toNat < f12.chStart (2#4).toNat + 1 ∧
    f12.chStart (2#4).toNat + 1 ≤ 8 * ({ f12 with len := 3#16 } : State).len.toNat ∧
    opcodeOf 0x00000218#32 = 0x18#8 ∧ (0x00000218#32).extractLsb' 12 20 = 0#20 ∧
    (0x00001118#32).extractLsb' 12 20 ≠ 0#20 := by decide

theorem witness_FxencReadsTheEncoderField : (0#4).toNat < 1 ∧ 6 < (7#4).toNat ∧ (1#4).toNat = (0 : Fin 6).val + 1 ∧
    State.reset.lock = false ∧ f12.encmode[(1 : Fin 6)] = .off ∧
    (f12Loaded.lock = true ∧ f12Loaded.encmode[(0 : Fin 6)] ≠ .off ∧ f12Loaded.valid = false) ∧
    (f12.lock = true ∧ f12.encmode[(0 : Fin 6)] ≠ .off ∧ f12.valid = true) ∧
    8 * ({ f12 with len := 8#16 } : State).len.toNat < f12.encStart (1#4).toNat + 16 + 32 ∧
    f12.encStart (1#4).toNat + 16 + 32 ≤ 8 * ({ f12 with len := 9#16 } : State).len.toNat ∧
    opcodeOf 0x00001119#32 = 0x19#8 ∧ (0x00001119#32).extractLsb' 13 19 = 0#19 ∧
    (0x00002119#32).extractLsb' 13 19 ≠ 0#19 := by decide

theorem witness_FxperLocatesTheReply : (2#2).toNat = (1 : Fin 3).val + 1 ∧ State.reset.lock = false ∧
    f12.pcount 1 ≤ (1#4).toNat ∧ f12.ptab[(1 : Fin 3)][(0#4).toNat]? = some ⟨5#4, 0x29#7, 9#16⟩ ∧ f12.lock = true ∧
    f12Loaded.valid = false ∧ f12.valid = true ∧
    8 * ({ f12 with len := 9#16 } : State).len.toNat < f12.pStart 1 (0#4).toNat + (9#16).toNat ∧
    f12.pStart 1 (0#4).toNat + (9#16).toNat ≤ 8 * ({ f12 with len := 10#16 } : State).len.toNat ∧
    opcodeOf 0x0000021A#32 = 0x1A#8 ∧ (0x0000021A#32).extractLsb' 14 18 = 0#18 ∧
    (0x0000421A#32).extractLsb' 14 18 ≠ 0#18 := by decide

theorem witness_FieldsLieWithinThePlannedFrame : Invariant f12 ∧ f12.len.toNat = f12.tlen.toNat ∧ f12.lock = true ∧
    f12.valid = true ∧ isFieldCommand (.fxenc 1 .vel) = true ∧ ends (.fxenc 1 .vel) f12 (fun _ => true) = true ∧
    ((1#4).toNat = (0 : Fin 12).val + 1 ∧ f12.chmode[(0 : Fin 12)] ≠ .off) ∧
    ((1#4).toNat = (0 : Fin 6).val + 1 ∧ f12.encmode[(0 : Fin 6)] ≠ .off) ∧
    (2#2).toNat = (1 : Fin 3).val + 1 ∧ (0#4).toNat < f12.pcount 1 :=
  ⟨witness_invariant_f12, by decide⟩

theorem witness_FieldCommandsNeedAValidFrame : isFieldCommand (.fxch 1) = true ∧ isFieldCommand (.fxenc 1 .pos) = true ∧
    isFieldCommand (.fxper 2 0) = true ∧ f12Loaded.valid = false := by decide

theorem witness_FailedCommandsRecordOnlyTheError : ends (.setch 3 1) f12 (fun t => t.code != .ok) = true ∧
    ends (.fxch 1) f12 (fun t => t.code == .ok) = true := by decide

theorem witness_CommandsRaiseOnlyTheirListedCodes : (Instr.getrange 9 .u .w8).wellFormed = true ∧
    ends (.getrange 9 .u .w8) b4 (fun t => t.code == .badlen) = true := by decide

theorem witness_CommandsIgnoreEarlierErrors : ∃ t, exec .clrerr f12 = .next t := ⟨_, rfl⟩

theorem witness_StickyIsClearedOnlyByClrerrOrReset :
    (∃ t, step { b4 with sticky := true, inputs := [.write 0 4 1#32] } = .next t ∧ t.sticky = false) ∧
    ∃ t, step { b4 with sticky := true, inputs := [.reset] } = .next t ∧ t.sticky = false :=
  ⟨⟨_, rfl, by decide⟩, ⟨_, rfl, by decide⟩⟩

theorem witness_LockedConfigurationIsFrozen : Invariant f12 ∧ f12.lock = true ∧ (∃ t, step f12 = .next t ∧
    t.lock = true) ∧
    ∃ t, step { f12 with inputs := [.write 0 4 0x15#32] } = .next t ∧ t.lock = false :=
  ⟨witness_invariant_f12, by decide, ⟨_, rfl, by decide⟩, ⟨_, rfl, by decide⟩⟩

set_option maxRecDepth 8000 in
theorem witness_ValidMeansACheckedUnchangedFrame : (∃ t, step f12 = .next t ∧ t.valid = true) ∧
    f12Loaded.valid = false ∧
    (after (.write 0 4 0x9#32) f12Loaded).map (·.valid) = some true :=
  ⟨⟨_, rfl, by decide⟩, by decide, by decide⟩

set_option maxRecDepth 8000 in
theorem witness_DiscFollowsTheIdentityByte : (after (.write 0 4 0x9#32) State.reset).map (·.disc) = some true ∧
    (after .reset { f12 with disc := true }).map (·.disc) = some false ∧
    (after (.write 0 4 0x14#32) { f12 with disc := true }).map (·.disc) = some false ∧
    (after (.write 0 4 0x9#32) { f12 with disc := true }).map (·.disc) = some false := by decide

set_option maxRecDepth 8000 in
theorem witness_OnlyNamedCommandsWriteEachRegister : changes (.getbit 2) b4 (·.result) = true ∧
    changes (.fxch 1) f12 (·.cursor) = true ∧ changes (.alloc 5) b4 (·.len) = true ∧
    changes (.alloc 4) b4 (·.mem) = true ∧
    changes .clrerr { b4 with sticky := true } (·.sticky) = true ∧
    ends (.alloc 257) b4 (fun t => t.sticky != b4.sticky && t.code != .ok) = true ∧
    changes .framechk f12Loaded (·.valid) = true ∧ changes (.alloc 12) f12 (·.valid) = true ∧
    changes (.setbit 0 true) f12 (·.valid) = true ∧ changes (.setid 0xA5) f12 (·.valid) = true ∧
    changes .layout f12 (·.valid) = true ∧ changes .cfgclr f12 (·.valid) = true ∧
    changes .framechk State.reset (·.disc) = true ∧ changes .framechk b4 (·.disc) = true ∧
    changes .layout { b4 with disc := true } (·.disc) = true ∧
    changes .crcgen frame5 (·.crc) = true ∧ changes .crcgen frame5 (·.crcok) = true ∧
    changes .layout f12 (·.fres) = true ∧ changes .cfgclr f12 (·.lock) = true ∧
    changes (.setch 12 2) b4 (·.chmode) = true ∧ changes (.setenc 6 2) b4 (·.encmode) = true ∧
    changes .cfgclr f12 (·.ptab) = true ∧ changes (.setid 0xA5) b4 (·.ident) = true ∧
    changes .layout f12Open (·.tlen) = true := by decide

theorem witness_EveryStepKeepsTheInvariant : Invariant f12 ∧ (∃ t, step f12 = .next t) ∧ Invariant fullBus ∧
    ∃ t, step { fullBus with inputs := [.write 0 4 0x14#32] } = .next t :=
  ⟨witness_invariant_f12, ⟨_, rfl⟩, witness_invariant_fullBus, ⟨_, rfl⟩⟩

theorem witness_EveryStepKeepsTheMemoryCanonical : MemoryOk f12 ∧
    (after (.write 0x101 1 0#32) f12).map (fun t => Memory.read t.mem 1) = some 0x00#8 :=
  ⟨⟨by decide, by decide⟩, by decide⟩

theorem witness_EveryStepKeepsTheStatusConsistent : Invariant f12 ∧ StatusOk f12 ∧
    ∃ t, step { f12 with inputs := [.write 0 4 0x08#32] } = .next t :=
  ⟨witness_invariant_f12, ⟨by decide, by decide⟩, ⟨_, rfl⟩⟩

end Sys2Proof.Tests
end

namespace Sys2Proof.Machine

/-! ### What every command answers (rules R221 and R226) -/

/-- The outcome of a command: an error recorded and nothing else (rule R221), or success, with STICKY left alone by
every command but CLRERR (rule R227). -/
def EndsWell (i : Instr) (s t : State) : Prop :=
  (∃ e, e ≠ .ok ∧ t = s.withError e) ∨ (t.code = .ok ∧ (i ≠ .clrerr → t.sticky = s.sticky))

theorem endsWell_of_error {i : Instr} {s : State} {e : Code} (he : e ≠ .ok) : EndsWell i s (s.withError e) :=
  .inl ⟨e, he, rfl⟩

theorem endsWell_of_success {i : Instr} {s u : State} (hu : u.sticky = s.sticky) : EndsWell i s u.withOk :=
  .inr ⟨rfl, fun _ => hu⟩

/-- Settled checks always answer a next state. -/
theorem settle_answers (check : Option Code) (s t : State) : ∃ u, settle check s t = .next u := by
  cases check with
  | none => exact ⟨_, rfl⟩
  | some e => exact ⟨_, rfl⟩

/-- A command with one check always answers a next state. -/
theorem raise_or_complete_answers (p : Prop) [Decidable p] (e : Code) (s t : State) :
    ∃ u, (if p then raise e s else complete t) = .next u := by
  split_ifs <;> exact ⟨_, rfl⟩

theorem execSetch_answers (c : BitVec 4) (m : BitVec 2) (s : State) : ∃ t, execSetch c m s = .next t := by
  unfold execSetch
  split_ifs
  · exact ⟨_, rfl⟩
  · cases channelOf c with
    | none => exact ⟨_, rfl⟩
    | some k => cases chModeOf m <;> exact ⟨_, rfl⟩

theorem execSetenc_answers (e : BitVec 4) (m : BitVec 2) (s : State) : ∃ t, execSetenc e m s = .next t := by
  unfold execSetenc
  split_ifs
  · exact ⟨_, rfl⟩
  · cases encoderOf e with
    | none => exact ⟨_, rfl⟩
    | some k => cases encModeOf m <;> exact ⟨_, rfl⟩

theorem execAttach_answers (b : BitVec 2) (ty : BitVec 4) (a : BitVec 7) (s : State) :
    ∃ t, execAttach b ty a s = .next t := by
  unfold execAttach
  split_ifs
  · exact ⟨_, rfl⟩
  · cases busOf b with
    | none => exact ⟨_, rfl⟩
    | some k => exact settle_answers ..

theorem execFxch_answers (c : BitVec 4) (s : State) : ∃ t, execFxch c s = .next t := by
  unfold execFxch
  cases channelOf c with
  | none => exact ⟨_, rfl⟩
  | some k => exact settle_answers ..

theorem execFxenc_answers (e : BitVec 4) (p : EncPart) (s : State) : ∃ t, execFxenc e p s = .next t := by
  unfold execFxenc
  cases encoderOf e with
  | none => exact ⟨_, rfl⟩
  | some k => exact settle_answers ..

theorem execFxper_answers (b : BitVec 2) (slot : BitVec 4) (s : State) : ∃ t, execFxper b slot s = .next t := by
  unfold execFxper
  cases busOf b with
  | none => exact ⟨_, rfl⟩
  | some k =>
    cases h : s.ptab[k][slot.toNat]? with
    | none => exact ⟨_, by simp only [h]; rfl⟩
    | some p => simp only [h]; exact settle_answers ..

theorem execFramechk_answers (s : State) : ∃ t, execFramechk s = .next t := by
  unfold execFramechk
  split_ifs <;> exact ⟨_, rfl⟩

/-- Every command answers a next state: none faults and none is refused. -/
theorem exec_answers (i : Instr) (s : State) : ∃ t, exec i s = .next t := by
  cases i with
  | nop | clrerr | setid | cfgclr => exact ⟨_, rfl⟩
  | alloc | setbit | getbit | crcgen | layout => exact raise_or_complete_answers ..
  | getrange | getnext => exact settle_answers ..
  | framechk => exact execFramechk_answers ..
  | setch => exact execSetch_answers ..
  | setenc => exact execSetenc_answers ..
  | attach => exact execAttach_answers ..
  | fxch => exact execFxch_answers ..
  | fxenc => exact execFxenc_answers ..
  | fxper => exact execFxper_answers ..

/-- The errors of a range's checks are errors. -/
theorem rangeCheck_ne_ok {s : State} {start l : Nat} {k : Kind} {w : Width} {e : Code}
    (h : rangeCheck s start l k w = some e) : e ≠ .ok := by
  rcases rangeCheck_cases _ _ _ _ _ _ h with rfl | rfl | rfl <;> decide

/-- Every command ends well, each by what its own meaning can do. -/
theorem exec_endsWell (i : Instr) (s t : State) (h : exec i s = .next t) : EndsWell i s t := by
  cases i with
  | nop => obtain rfl := execNop_cases _ _ h; exact endsWell_of_success rfl
  | clrerr => obtain rfl := execClrerr_cases _ _ h; exact .inr ⟨rfl, fun hne => absurd rfl hne⟩
  | setid x => obtain rfl := execSetid_cases _ _ _ h; exact endsWell_of_success rfl
  | cfgclr => obtain rfl := execCfgclr_cases _ _ h; exact endsWell_of_success rfl
  | alloc n =>
    rcases execAlloc_cases _ _ _ h with ⟨-, rfl⟩ | ⟨-, rfl⟩
    · exact endsWell_of_error (by decide)
    · exact endsWell_of_success rfl
  | setbit j v =>
    rcases execSetbit_cases _ _ _ _ h with ⟨-, rfl⟩ | ⟨-, rfl⟩
    · exact endsWell_of_error (by decide)
    · exact endsWell_of_success rfl
  | getbit j =>
    rcases execGetbit_cases _ _ _ h with ⟨-, rfl⟩ | ⟨-, rfl⟩
    · exact endsWell_of_error (by decide)
    · exact endsWell_of_success rfl
  | getrange l k w =>
    rcases execGetrange_cases _ _ _ _ _ h with ⟨e, he, rfl⟩ | ⟨-, rfl⟩
    · exact endsWell_of_error (rangeCheck_ne_ok he)
    · exact endsWell_of_success rfl
  | getnext l k w =>
    rcases execGetnext_cases _ _ _ _ _ h with ⟨e, he, rfl⟩ | ⟨-, rfl⟩
    · exact endsWell_of_error (rangeCheck_ne_ok he)
    · exact endsWell_of_success rfl
  | crcgen =>
    rcases execCrcgen_cases _ _ h with ⟨-, rfl⟩ | ⟨-, rfl⟩
    · exact endsWell_of_error (by decide)
    · exact endsWell_of_success rfl
  | framechk =>
    rcases execFramechk_cases _ _ h with ⟨-, rfl⟩ | ⟨-, -, rfl⟩ | ⟨-, -, -, rfl⟩ | ⟨-, -, -, rfl⟩ <;>
      exact endsWell_of_success rfl
  | layout =>
    rcases execLayout_cases _ _ h with ⟨-, rfl⟩ | ⟨-, rfl⟩
    · exact endsWell_of_error (by decide)
    · exact endsWell_of_success rfl
  | setch c m =>
    rcases execSetch_cases _ _ _ _ h with ⟨e, he, rfl⟩ | ⟨k, mode, -, -, -, rfl⟩
    · exact endsWell_of_error (by rcases he with rfl | rfl | rfl <;> decide)
    · exact endsWell_of_success rfl
  | setenc c m =>
    rcases execSetenc_cases _ _ _ _ h with ⟨e, he, rfl⟩ | ⟨k, mode, -, -, -, rfl⟩
    · exact endsWell_of_error (by rcases he with rfl | rfl | rfl <;> decide)
    · exact endsWell_of_success rfl
  | attach b ty a =>
    rcases execAttach_cases _ _ _ _ _ h with ⟨e, he, rfl⟩ | ⟨k, -, -, -, rfl⟩
    · exact endsWell_of_error (by rcases he with rfl | rfl | rfl | rfl | rfl <;> decide)
    · exact endsWell_of_success rfl
  | fxch c =>
    rcases execFxch_cases _ _ _ h with ⟨e, he, rfl⟩ | ⟨k, -, -, rfl⟩
    · exact endsWell_of_error (by rcases he with rfl | rfl | rfl | rfl <;> decide)
    · exact endsWell_of_success rfl
  | fxenc c p =>
    rcases execFxenc_cases _ _ _ _ h with ⟨e, he, rfl⟩ | ⟨k, -, -, rfl⟩
    · exact endsWell_of_error (by rcases he with rfl | rfl | rfl | rfl <;> decide)
    · exact endsWell_of_success rfl
  | fxper b slot =>
    rcases execFxper_cases _ _ _ _ h with ⟨e, he, rfl⟩ | ⟨k, p, -, -, -, rfl⟩
    · exact endsWell_of_error (by rcases he with rfl | rfl | rfl | rfl <;> decide)
    · exact endsWell_of_success rfl

/-- Settles O45: the command answers, and each of its outcomes is an error recorded or a success. -/
theorem failedCommandsRecordOnlyTheError : Obligations.FailedCommandsRecordOnlyTheError := by
  intro i s
  obtain ⟨t, ht⟩ := exec_answers i s
  refine ⟨t, ht, ?_⟩
  rcases exec_endsWell i s t ht with ⟨e, he, rfl⟩ | ⟨hok, hsticky⟩
  · exact ⟨fun _ => rfl, fun hok => absurd hok he⟩
  · exact ⟨fun hne => absurd hok hne, fun _ hi => hsticky hi⟩

/-! ### The window and the bit space (rule R67) -/

/-- A little-endian value is the range it covers: byte order and bit order agree (rules R9 and R66). -/
theorem Memory.readBytes_eq_raw (m : Memory) (j n : Nat) : Memory.readBytes m j n = Memory.raw m (8 * j) (8 * n) :=
  Nat.eq_of_testBit_eq fun i => by rw [testBit_readBytes, testBit_raw]

/-- Bit `i` of the field that `n` bytes written from byte `j` make is bit `i` of the data. -/
theorem Memory.bit_writeBytes (m : Memory) (j n i : Nat) (v : Word) (hi : i < 8 * n) :
    Memory.bit (Memory.writeBytes m j n v) (8 * j + i) = v.getLsbD i := by
  have hbyte : (8 * j + i) / 8 = j + i / 8 := by omega
  have hplace : (8 * j + i) % 8 = i % 8 := by omega
  unfold Memory.bit
  rw [hbyte, hplace, read_writeBytes, if_pos (by omega), BitVec.getLsbD_extractLsb', Nat.add_sub_cancel_left,
    Nat.div_add_mod]
  simp [Nat.mod_lt]

/-- The range that `n` written bytes cover reads as the low `8 * n` bits of the data. -/
theorem Memory.raw_writeBytes (m : Memory) (j n : Nat) (v : Word) :
    Memory.raw (Memory.writeBytes m j n v) (8 * j) (8 * n) = v.toNat % 2 ^ (8 * n) := by
  refine Nat.eq_of_testBit_eq fun i => ?_
  rw [testBit_raw, Nat.testBit_mod_two_pow]
  by_cases hi : i < 8 * n
  · rw [bit_writeBytes _ _ _ _ _ hi, BitVec.getLsbD]
  · simp [hi]

/-- A window read that passes its checks returns the buffer's bytes and does nothing else (rules R62 and R66). -/
theorem step_read_buffer (s : State) (j n : Nat) (rest : List Input) (hc : bufCheck s j n = none)
    (hin : s.inputs = .read (s.blockBase + 0x100 + j) n :: rest) :
    step s = .next { s with inputs := rest, rdata := BitVec.ofNat 32 (Memory.readBytes s.mem j n) } := by
  have hc' : bufCheck { s with inputs := rest } j n = none := hc
  simp [step, hin, perform, hostRead, Config.bufWindow, readBuffer, hc', giveRead, Nat.add_assoc]

/-- A window write that passes its checks writes the buffer's bytes and clears VALID (rules R62 and R66). -/
theorem step_write_buffer (s : State) (j n : Nat) (v : Word) (rest : List Input) (hc : bufCheck s j n = none)
    (hin : s.inputs = .write (s.blockBase + 0x100 + j) n v :: rest) :
    step s = .next { s with inputs := rest, mem := Memory.writeBytes s.mem j n v, valid := false } := by
  have hc' : bufCheck { s with inputs := rest } j n = none := hc
  simp [step, hin, perform, hostWrite, Config.bufWindow, writeBuffer, hc', Nat.add_assoc]

/-- GETRANGE of an unsigned range that lies in the buffer ends with OK and the range's value (rules R120 and R124). -/
theorem execGetrange_u (l : BitVec 7) (w : Width) (s : State) (hl : l.toNat ≤ widthBits w)
    (hs : s.arg0.toNat + l.toNat ≤ s.bitLength) :
    exec (.getrange l .u w) s =
      .next { s with result := zeroExtend64 (Memory.raw s.mem s.arg0.toNat l.toNat), code := .ok } := by
  have hc : rangeCheck s s.arg0.toNat l.toNat .u w = none :=
    (rangeCheck_eq_none ..).2 ⟨by cases w <;> rfl, hl, hs⟩
  simp only [exec, execGetrange, hc, settle_none]
  rfl

/-- Settles O19: both sides of each equation have the same bits. -/
theorem windowAndBitSpaceAgree : Obligations.WindowAndBitSpaceAgree := by
  intro s j n v rest hn halign hcap hlen
  have hc : bufCheck s j n = none := (bufCheck_eq_none s j n).2 ⟨hn, halign, hcap, hlen⟩
  have hpow : 2 ^ (8 * n) ≤ 2 ^ 32 := Nat.pow_le_pow_right (by decide) (by omega)
  refine ⟨fun hin => ⟨_, step_read_buffer s j n rest hc hin, ?_⟩,
    fun hin => ⟨_, step_write_buffer s j n v rest hc hin, ?_⟩⟩
  · rw [← Memory.readBytes_eq_raw, BitVec.toNat_ofNat]
    exact Nat.mod_eq_of_lt ((Memory.readBytes_lt ..).trans_le hpow)
  · intro w hw
    have hlenBound := s.len.isLt
    have hl : (BitVec.ofNat 7 (8 * n)).toNat = 8 * n := by rw [BitVec.toNat_ofNat]; omega
    have ha : (BitVec.ofNat 32 (8 * j)).toNat = 8 * j := by rw [BitVec.toNat_ofNat]; omega
    refine ⟨_, execGetrange_u _ w _ (by rwa [hl]) ?_, rfl, ?_⟩
    · simp only [hl, ha, State.bitLength]; omega
    · have hlt : v.toNat % 2 ^ (8 * n) < 2 ^ 64 :=
        ((Nat.mod_lt _ (Nat.two_pow_pos _)).trans_le hpow).trans (by decide)
      simp only [hl, ha, Memory.raw_writeBytes, zeroExtend64, BitVec.toNat_ofNat]
      exact Nat.mod_eq_of_lt hlt

/-! ### The invariant (rule R40) -/

/-- What the invariant says of the descriptors of one bus. -/
structure BusOk (ps : List Peripheral) : Prop where
  types : (ps.map fun p => p.type).Nodup
  addresses : (ps.map fun p => p.addr).Nodup
  replies : ∀ p ∈ ps, p.rlen ≠ 0#16

theorem Invariant.bus {s : State} (h : Invariant s) (b : Fin 3) : BusOk s.ptab[b] :=
  ⟨h.types b, h.addresses b, h.replies b⟩

theorem busOk_nil : BusOk [] := ⟨by simp, by simp, by simp⟩

/-- Type tags are 4 bits wide, so a bus without two of one type holds at most 16 descriptors: item 4 of rule R40 follows
from item 2. -/
theorem BusOk.length_le {ps : List Peripheral} (h : BusOk ps) : ps.length ≤ 16 := by
  have hnodup : ((ps.map fun p => p.type).map BitVec.toFin).Nodup :=
    h.types.map fun a b hab => BitVec.eq_of_toFin_eq hab
  simpa using hnodup.length_le_card

/-- A descriptor of a new type, a new address and a reply keeps its bus as the invariant wants it. -/
theorem BusOk.append {ps : List Peripheral} (h : BusOk ps) (q : Peripheral) (htype : ∀ p ∈ ps, p.type ≠ q.type)
    (haddr : ∀ p ∈ ps, p.addr ≠ q.addr) (hreply : q.rlen ≠ 0#16) : BusOk (ps ++ [q]) where
  types := by
    rw [List.map_append, List.map_singleton, List.nodup_append_comm, List.singleton_append, List.nodup_cons]
    exact ⟨by simpa using htype, h.types⟩
  addresses := by
    rw [List.map_append, List.map_singleton, List.nodup_append_comm, List.singleton_append, List.nodup_cons]
    exact ⟨by simpa using haddr, h.addresses⟩
  replies p hp := by
    rcases List.mem_append.1 hp with hp | hp
    · exact h.replies p hp
    · rwa [List.mem_singleton.1 hp]

/-- While LOCK = 0 the invariant asks nothing of the layout but TLEN = 0, so a command may write it freely. -/
theorem Invariant.of_unlocked {s : State} (hcap : Config.bufCapMin ≤ s.bufCap ∧ s.bufCap ≤ Config.bufCapMax)
    (hlen : s.len.toNat ≤ s.bufCap) (hbus : ∀ b : Fin 3, BusOk s.ptab[b]) (hlock : s.lock = false)
    (htlen : s.tlen = 0#7)
    (hframe : s.valid = true → 2 ≤ s.len.toNat ∧ Memory.read s.mem 0 = s.ident ∧ crc16 s.payload = s.trailer) :
    Invariant s where
  capacity := hcap
  length := hlen
  types b := (hbus b).types
  addresses b := (hbus b).addresses
  counts b := (hbus b).length_le
  replies b := (hbus b).replies
  locked hl := by simp [hlock] at hl
  unlocked _ := htlen
  frame := hframe

/-! An update that writes no field an item reads leaves that item as it was: `{ h with … }` names the items the update
touches. -/

theorem Invariant.withError {s : State} (h : Invariant s) (e : Code) : Invariant (s.withError e) := { h with }

theorem Invariant.withOk {s : State} (h : Invariant s) : Invariant s.withOk := { h with }

theorem Invariant.withCrc {s : State} (h : Invariant s) : Invariant s.withCrc := { h with }

/-- ARG0, CURSOR, CMD_LAST, RESULT and the host's side of the port are read by no item of the invariant. -/
theorem Invariant.setRegisters {s : State} (h : Invariant s) (arg0 cursor cmdLast rdata : Word) (result : BitVec 64)
    (inputs : List Input) :
    Invariant { s with
      arg0 := arg0, cursor := cursor, cmdLast := cmdLast, rdata := rdata, result := result, inputs := inputs } :=
  { h with }

/-- With VALID at 0 nothing is asked of the buffer's bytes and of IDENT. -/
theorem Invariant.invalidate {s : State} (h : Invariant s) (mem : Memory) (ident : BitVec 8) (disc crcok : Bool)
    (fres : FrameResult) :
    Invariant { s with mem := mem, ident := ident, valid := false, disc := disc, crcok := crcok, fres := fres } :=
  { h with frame := by simp }

theorem execAlloc_invariant {n : BitVec 16} {s t : State} (hs : Invariant s) (h : execAlloc n s = .next t) :
    Invariant t := by
  rcases execAlloc_cases _ _ _ h with ⟨-, rfl⟩ | ⟨hn, rfl⟩
  · exact hs.withError _
  · exact { hs with length := hn, frame := by simp }

theorem execFramechk_invariant {s t : State} (hs : Invariant s) (h : execFramechk s = .next t) : Invariant t := by
  rcases execFramechk_cases _ _ h with ⟨-, rfl⟩ | ⟨-, -, rfl⟩ | ⟨hlen, hident, hcrc, rfl⟩ | ⟨-, -, -, rfl⟩
  · exact (hs.invalidate ..).withOk
  · exact (hs.invalidate ..).withOk
  · exact { hs with frame := fun _ => ⟨hlen, hident, hcrc⟩ }
  · exact (hs.withCrc.invalidate ..).withOk

theorem execSetch_invariant {c : BitVec 4} {m : BitVec 2} {s t : State} (hs : Invariant s)
    (h : execSetch c m s = .next t) : Invariant t := by
  rcases execSetch_cases _ _ _ _ h with ⟨e, -, rfl⟩ | ⟨k, mode, hlock, -, -, rfl⟩
  · exact hs.withError _
  · exact .of_unlocked hs.capacity hs.length hs.bus hlock (hs.unlocked hlock) hs.frame

theorem execSetenc_invariant {e : BitVec 4} {m : BitVec 2} {s t : State} (hs : Invariant s)
    (h : execSetenc e m s = .next t) : Invariant t := by
  rcases execSetenc_cases _ _ _ _ h with ⟨e, -, rfl⟩ | ⟨k, mode, hlock, -, -, rfl⟩
  · exact hs.withError _
  · exact .of_unlocked hs.capacity hs.length hs.bus hlock (hs.unlocked hlock) hs.frame

/-- The checks of ATTACH are what the bus needs to stay as the invariant wants it. -/
theorem busOk_attach {s : State} (hs : Invariant s) {k : Fin 3} {ty : BitVec 4} {a : BitVec 7}
    (hc : attachCheck s k ty a = none) (b : Fin 3) :
    BusOk (s.ptab.set k (s.ptab[k] ++ [Peripheral.mk ty a (s.arg0.setWidth 16)]))[b] := by
  obtain ⟨⟨hpos, hmax⟩, htype, haddr⟩ := (attachCheck_eq_none ..).1 hc
  by_cases hb : k = b
  · subst hb
    have hreply : s.arg0.setWidth 16 ≠ 0#16 := by
      intro h0
      have := congrArg BitVec.toNat h0
      simp only [BitVec.toNat_setWidth, BitVec.toNat_ofNat] at this
      omega
    rw [Fin.getElem_fin, Vector.getElem_set_self]
    exact (hs.bus k).append ⟨ty, a, s.arg0.setWidth 16⟩ htype haddr hreply
  · have hne : k.val ≠ b.val := fun h => hb (Fin.ext h)
    simpa [Vector.getElem_set_ne, hne] using hs.bus b

theorem execAttach_invariant {b : BitVec 2} {ty : BitVec 4} {a : BitVec 7} {s t : State} (hs : Invariant s)
    (h : execAttach b ty a s = .next t) : Invariant t := by
  rcases execAttach_cases _ _ _ _ _ h with ⟨e, -, rfl⟩ | ⟨k, hlock, -, hc, rfl⟩
  · exact hs.withError _
  · exact .of_unlocked hs.capacity hs.length (busOk_attach hs hc) hlock (hs.unlocked hlock) hs.frame

/-- LAYOUT locks a layout of at most 100 bytes, which the 7 bits of TLEN hold. -/
theorem execLayout_invariant {s t : State} (hs : Invariant s) (h : execLayout s = .next t) : Invariant t := by
  rcases execLayout_cases _ _ h with ⟨-, rfl⟩ | ⟨hmax, rfl⟩
  · exact hs.withError _
  · have htlen : (BitVec.ofNat 7 s.layoutTlen).toNat = s.layoutTlen := by
      rw [BitVec.toNat_ofNat]
      simp only [Config.maxTlen] at hmax
      omega
    exact { hs with locked := fun _ => ⟨htlen, hmax⟩, unlocked := by simp, frame := by simp }

theorem execCfgclr_invariant {s t : State} (hs : Invariant s) (h : execCfgclr s = .next t) : Invariant t := by
  obtain rfl := execCfgclr_cases _ _ h
  exact .of_unlocked hs.capacity hs.length (fun b => by simpa using busOk_nil) rfl rfl (by simp)

/-- Every command keeps the invariant: an error leaves all it reads, and so does success of a command that writes
RESULT, CURSOR or the CRC alone; the others write with VALID at 0, or under the checks the invariant asks for. -/
theorem exec_invariant {i : Instr} {s t : State} (hs : Invariant s) (h : exec i s = .next t) : Invariant t := by
  cases i with
  | nop => obtain rfl := execNop_cases _ _ h; exact hs.withOk
  | clrerr => obtain rfl := execClrerr_cases _ _ h; exact { hs with }
  | alloc => exact execAlloc_invariant hs h
  | setbit =>
    rcases execSetbit_cases _ _ _ _ h with ⟨-, rfl⟩ | ⟨-, rfl⟩
    · exact hs.withError _
    · exact (hs.invalidate ..).withOk
  | getbit =>
    rcases execGetbit_cases _ _ _ h with ⟨-, rfl⟩ | ⟨-, rfl⟩
    · exact hs.withError _
    · exact (hs.setRegisters ..).withOk
  | getrange =>
    rcases execGetrange_cases _ _ _ _ _ h with ⟨e, -, rfl⟩ | ⟨-, rfl⟩
    · exact hs.withError _
    · exact (hs.setRegisters ..).withOk
  | getnext =>
    rcases execGetnext_cases _ _ _ _ _ h with ⟨e, -, rfl⟩ | ⟨-, rfl⟩
    · exact hs.withError _
    · exact (hs.setRegisters ..).withOk
  | crcgen =>
    rcases execCrcgen_cases _ _ h with ⟨-, rfl⟩ | ⟨-, rfl⟩
    · exact hs.withError _
    · exact hs.withCrc.withOk
  | framechk => exact execFramechk_invariant hs h
  | setch => exact execSetch_invariant hs h
  | setenc => exact execSetenc_invariant hs h
  | attach => exact execAttach_invariant hs h
  | setid => obtain rfl := execSetid_cases _ _ _ h; exact (hs.invalidate ..).withOk
  | layout => exact execLayout_invariant hs h
  | cfgclr => exact execCfgclr_invariant hs h
  | fxch =>
    rcases execFxch_cases _ _ _ h with ⟨e, -, rfl⟩ | ⟨k, -, -, rfl⟩
    · exact hs.withError _
    · exact (hs.setRegisters ..).withOk
  | fxenc =>
    rcases execFxenc_cases _ _ _ _ h with ⟨e, -, rfl⟩ | ⟨k, -, -, rfl⟩
    · exact hs.withError _
    · exact (hs.setRegisters ..).withOk
  | fxper =>
    rcases execFxper_cases _ _ _ _ h with ⟨e, -, rfl⟩ | ⟨k, p, -, -, -, rfl⟩
    · exact hs.withError _
    · exact (hs.setRegisters ..).withOk

/-- A reset block meets the invariant in every machine whose BUF_CAP rule R7 allows. -/
theorem invariant_reset {s : State} (hs : Invariant s) (inputs : List Input) :
    Invariant { s with toBlock := Block.reset, inputs := inputs } :=
  .of_unlocked hs.capacity (by simp [Block.reset]) (fun b => by simpa [Block.reset] using busOk_nil) rfl rfl
    (by simp [Block.reset])

/-- Settles O54, by the outcomes of a step: a command keeps the invariant by `exec_invariant`, and every other access
writes a register the invariant does not read, clears VALID, or records an error. -/
theorem everyStepKeepsTheInvariant : Obligations.EveryStepKeepsTheInvariant := by
  intro s t hs h
  rcases step_outcomes s t h with ⟨-, rfl⟩ | ⟨rest, -, rfl⟩ | ⟨rest, a, n, -, hread⟩ | ⟨rest, w, i, -, -, hexec⟩ |
    ⟨rest, w, e, -, -, rfl⟩ | ⟨rest, a, n, d, -, hwrite⟩
  · exact hs
  · exact invariant_reset hs rest
  · rcases hread with ⟨v, rfl⟩ | ⟨e, -, rfl⟩
    · exact hs.setRegisters ..
    · exact (hs.setRegisters ..).withError _
  · exact exec_invariant (hs.setRegisters ..) hexec
  · exact (hs.setRegisters ..).withError _
  · rcases hwrite with rfl | rfl | ⟨j, -, rfl⟩ | ⟨e, -, rfl⟩
    · exact hs.setRegisters ..
    · exact hs.setRegisters ..
    · exact { hs with frame := by simp }
    · exact (hs.setRegisters ..).withError _

end Sys2Proof.Machine

namespace Sys2Proof.Machine

/-! ### What each command writes (rules R23 to R38) -/

/-- The outcome of a command, register by register: what it leaves alone, and which commands write the rest. CODE is
written by every command, and the parameters and the host's side of the port by none. -/
structure OnlyNamedWrites (i : Instr) (s t : State) : Prop where
  arg0 : t.arg0 = s.arg0
  cmdLast : t.cmdLast = s.cmdLast
  bufCap : t.bufCap = s.bufCap
  blockBase : t.blockBase = s.blockBase
  inputs : t.inputs = s.inputs
  result : t.result ≠ s.result → writesResult i = true ∧ t.code = .ok
  cursor : t.cursor ≠ s.cursor → (∃ n, i = .alloc n) ∨ (∃ l k w, i = .getnext l k w) ∨ isFieldCommand i = true
  len : t.len ≠ s.len → ∃ n, i = .alloc n ∧ t.len = n
  mem : t.mem ≠ s.mem → (∃ n, i = .alloc n) ∨ ∃ j v, i = .setbit j v
  crc : t.crc ≠ s.crc → i = .crcgen ∨ i = .framechk
  sticky : t.sticky ≠ s.sticky → i = .clrerr ∨ t.code ≠ .ok
  valid : t.valid ≠ s.valid → i = .framechk ∨ (∃ n, i = .alloc n) ∨ (∃ j v, i = .setbit j v) ∨ (∃ x, i = .setid x) ∨
    i = .layout ∨ i = .cfgclr
  disc : t.disc ≠ s.disc → i = .framechk ∨ i = .layout
  crcok : t.crcok ≠ s.crcok → i = .crcgen ∨ i = .framechk ∨ ∃ n, i = .alloc n
  fres : t.fres ≠ s.fres → i = .framechk ∨ i = .layout
  lock : t.lock ≠ s.lock → i = .layout ∨ i = .cfgclr
  chmode : t.chmode ≠ s.chmode → (∃ c m, i = .setch c m) ∨ i = .cfgclr
  encmode : t.encmode ≠ s.encmode → (∃ e m, i = .setenc e m) ∨ i = .cfgclr
  ptab : t.ptab ≠ s.ptab → (∃ b ty a, i = .attach b ty a) ∨ i = .cfgclr
  ident : t.ident ≠ s.ident → ∃ x, i = .setid x ∧ t.ident = x
  tlen : t.tlen ≠ s.tlen → i = .layout ∨ i = .cfgclr

/-- A command that ends with an error writes CODE and STICKY alone (rule R221). -/
theorem onlyNamedWrites_of_error {i : Instr} {s : State} {e : Code} (h : exec i s = .next (s.withError e)) :
    OnlyNamedWrites i s (s.withError e) := by
  have hsticky : s.sticky = false → i = .clrerr ∨ e ≠ .ok := by
    intro hs
    rcases exec_endsWell i s _ h with ⟨e', he, heq⟩ | ⟨-, hkeep⟩
    · exact .inr fun hok => he ((congrArg (·.code) heq).symm.trans hok)
    · exact .inl (not_not.1 fun hi => by simpa [hs] using hkeep hi)
  constructor
  case sticky => simpa using hsticky
  all_goals simp

/-- A field command that succeeds writes RESULT, CURSOR and CODE alone (rule R190). -/
theorem onlyNamedWrites_of_field {i : Instr} (hi : isFieldCommand i = true) (s : State) (result : BitVec 64)
    (cursor : Word) : OnlyNamedWrites i s (State.withOk { s with result := result, cursor := cursor }) := by
  have hw : writesResult i = true := by cases i <;> trivial
  constructor <;> simp [hi, hw]

/-- Every command writes what its rule names: an error records itself alone, and a success writes the fields that its
meaning's `_cases` lemma lists. -/
theorem exec_onlyNamedWrites {i : Instr} {s t : State} (h : exec i s = .next t) : OnlyNamedWrites i s t := by
  cases i with
  | nop => obtain rfl := execNop_cases _ _ h; constructor <;> simp
  | clrerr => obtain rfl := execClrerr_cases _ _ h; constructor <;> simp
  | setid => obtain rfl := execSetid_cases _ _ _ h; constructor <;> simp
  | cfgclr => obtain rfl := execCfgclr_cases _ _ h; constructor <;> simp
  | alloc =>
    rcases execAlloc_cases _ _ _ h with ⟨-, rfl⟩ | ⟨-, rfl⟩
    · exact onlyNamedWrites_of_error h
    · constructor <;> simp
  | setbit =>
    rcases execSetbit_cases _ _ _ _ h with ⟨-, rfl⟩ | ⟨-, rfl⟩
    · exact onlyNamedWrites_of_error h
    · constructor <;> simp
  | getbit =>
    rcases execGetbit_cases _ _ _ h with ⟨-, rfl⟩ | ⟨-, rfl⟩
    · exact onlyNamedWrites_of_error h
    · constructor <;> simp [writesResult]
  | getrange =>
    rcases execGetrange_cases _ _ _ _ _ h with ⟨e, -, rfl⟩ | ⟨-, rfl⟩
    · exact onlyNamedWrites_of_error h
    · constructor <;> simp [writesResult]
  | getnext =>
    rcases execGetnext_cases _ _ _ _ _ h with ⟨e, -, rfl⟩ | ⟨-, rfl⟩
    · exact onlyNamedWrites_of_error h
    · constructor <;> simp [writesResult]
  | crcgen =>
    rcases execCrcgen_cases _ _ h with ⟨-, rfl⟩ | ⟨-, rfl⟩
    · exact onlyNamedWrites_of_error h
    · constructor <;> simp
  | framechk =>
    rcases execFramechk_cases _ _ h with ⟨-, rfl⟩ | ⟨-, -, rfl⟩ | ⟨-, -, -, rfl⟩ | ⟨-, -, -, rfl⟩ <;>
      constructor <;> simp
  | setch =>
    rcases execSetch_cases _ _ _ _ h with ⟨e, -, rfl⟩ | ⟨k, mode, -, -, -, rfl⟩
    · exact onlyNamedWrites_of_error h
    · constructor <;> simp
  | setenc =>
    rcases execSetenc_cases _ _ _ _ h with ⟨e, -, rfl⟩ | ⟨k, mode, -, -, -, rfl⟩
    · exact onlyNamedWrites_of_error h
    · constructor <;> simp
  | attach =>
    rcases execAttach_cases _ _ _ _ _ h with ⟨e, -, rfl⟩ | ⟨k, -, -, -, rfl⟩
    · exact onlyNamedWrites_of_error h
    · constructor <;> simp
  | layout =>
    rcases execLayout_cases _ _ h with ⟨-, rfl⟩ | ⟨-, rfl⟩
    · exact onlyNamedWrites_of_error h
    · constructor <;> simp
  | fxch =>
    rcases execFxch_cases _ _ _ h with ⟨e, -, rfl⟩ | ⟨k, -, -, rfl⟩
    · exact onlyNamedWrites_of_error h
    · exact onlyNamedWrites_of_field rfl ..
  | fxenc =>
    rcases execFxenc_cases _ _ _ _ h with ⟨e, -, rfl⟩ | ⟨k, -, -, rfl⟩
    · exact onlyNamedWrites_of_error h
    · exact onlyNamedWrites_of_field rfl ..
  | fxper =>
    rcases execFxper_cases _ _ _ _ h with ⟨e, -, rfl⟩ | ⟨k, p, -, -, -, rfl⟩
    · exact onlyNamedWrites_of_error h
    · exact onlyNamedWrites_of_field rfl ..

/-- Settles O52. -/
theorem onlyNamedCommandsWriteEachRegister : Obligations.OnlyNamedCommandsWriteEachRegister := by
  intro i s t h
  have hw := exec_onlyNamedWrites h
  exact ⟨hw.arg0, hw.cmdLast, hw.result, hw.cursor, hw.len, hw.mem, hw.crc, hw.sticky, hw.valid, hw.disc, hw.crcok,
    hw.fres, hw.lock, hw.chmode, hw.encmode, hw.ptab, hw.ident, hw.tlen⟩

/-! ### The canonical memory (rule R38) -/

theorem MemoryOk.of_eq {s t : State} (hs : MemoryOk s) (hmem : t.mem = s.mem) (hlen : t.len = s.len) : MemoryOk t where
  canonical := hmem ▸ hs.canonical
  allocated := by rw [hmem, hlen]; exact hs.allocated

/-- A memory that lists nothing is canonical whatever LEN is: what reset and ALLOC leave. -/
theorem memoryOk_of_empty {s : State} (h : s.mem = []) : MemoryOk s where
  canonical := h ▸ Memory.wf_nil
  allocated := by simp [h]

theorem execSetbit_memoryOk {i : BitVec 16} {v : Bool} {s t : State} (hs : MemoryOk s)
    (h : execSetbit i v s = .next t) : MemoryOk t := by
  rcases execSetbit_cases _ _ _ _ h with ⟨-, rfl⟩ | ⟨hi, rfl⟩
  · exact hs.of_eq rfl rfl
  · refine ⟨Memory.wf_setBit _ _ _ hs.canonical, fun c hc => ?_⟩
    rcases Memory.mem_setBit _ _ _ _ hc with hc | hc
    · rw [State.bitLength] at hi
      simp only [State.withOk_len]
      omega
    · exact hs.allocated c hc

/-- ALLOC empties the memory, SETBIT lists a byte below LEN, and no other command writes the memory or LEN. -/
theorem exec_memoryOk {i : Instr} {s t : State} (hs : MemoryOk s) (h : exec i s = .next t) : MemoryOk t := by
  have hw := exec_onlyNamedWrites h
  by_cases hsame : t.mem = s.mem ∧ t.len = s.len
  · exact hs.of_eq hsame.1 hsame.2
  · have hi : (∃ n, i = .alloc n) ∨ ∃ j v, i = .setbit j v := by
      rcases not_and_or.1 hsame with hmem | hlen
      · exact hw.mem hmem
      · exact .inl ((hw.len hlen).imp fun _ h => h.1)
    rcases hi with ⟨n, rfl⟩ | ⟨j, v, rfl⟩
    · rcases execAlloc_cases _ _ _ h with ⟨-, rfl⟩ | ⟨-, rfl⟩
      · exact hs.of_eq rfl rfl
      · exact memoryOk_of_empty rfl
    · exact execSetbit_memoryOk hs h

/-- A buffer write that passes its checks lists bytes below LEN (rule R62). -/
theorem MemoryOk.writeBytes {s : State} (hs : MemoryOk s) {j n : Nat} (hc : bufCheck s j n = none) (d : Word)
    (inputs : List Input) :
    MemoryOk { s with inputs := inputs, mem := Memory.writeBytes s.mem j n d, valid := false } := by
  obtain ⟨-, -, -, hlen⟩ := (bufCheck_eq_none s j n).1 hc
  refine ⟨Memory.wf_writeBytes _ _ _ _ hs.canonical, fun c hmem => ?_⟩
  rcases Memory.mem_writeBytes _ _ _ _ _ hmem with ⟨-, hlt⟩ | hmem
  · exact hlt.trans_le hlen
  · exact hs.allocated c hmem

/-- Settles O55, by the outcomes of a step: reset empties the memory, a command keeps it by `exec_memoryOk`, a buffer
write stays below LEN, and no other access writes it. -/
theorem everyStepKeepsTheMemoryCanonical : Obligations.EveryStepKeepsTheMemoryCanonical := by
  intro s t hs h
  rcases step_outcomes s t h with ⟨-, rfl⟩ | ⟨rest, -, rfl⟩ | ⟨rest, a, n, -, hread⟩ | ⟨rest, w, i, -, -, hexec⟩ |
    ⟨rest, w, e, -, -, rfl⟩ | ⟨rest, a, n, d, -, hwrite⟩
  · exact hs
  · exact memoryOk_of_empty rfl
  · rcases hread with ⟨v, rfl⟩ | ⟨e, -, rfl⟩ <;> exact hs.of_eq rfl rfl
  · refine exec_memoryOk ?_ hexec
    exact hs.of_eq rfl rfl
  · exact hs.of_eq rfl rfl
  · rcases hwrite with rfl | rfl | ⟨j, hj, rfl⟩ | ⟨e, -, rfl⟩
    · exact hs.of_eq rfl rfl
    · exact hs.of_eq rfl rfl
    · exact hs.writeBytes hj d rest
    · exact hs.of_eq rfl rfl

/-! ### The word of a command that has one word (rules R91 and R99) -/

/-- A format R word is read as the command its opcode selects, whatever its operands. -/
theorem decodeRange_eq_ok {mk : BitVec 7 → Kind → Width → Instr} {w : Word} {i : Instr}
    (h : decodeRange mk w = .ok i) : ∃ l k wd, i = mk l k wd := by
  unfold decodeRange at h
  split at h
  · cases h
  · split_ifs at h
    exact ⟨_, _, _, (Except.ok.inj h).symm⟩

/-- The command read from a word has the opcode it was selected by. -/
theorem opcode_of_decodeFields {op : BitVec 8} {w : Word} {i : Instr} (h : decodeFields op w = .ok i) :
    i.opcode = op := by
  unfold decodeFields at h
  split at h
  case h_6 | h_7 =>
    obtain ⟨l, k, wd, rfl⟩ := decodeRange_eq_ok h
    exact BitVec.eq_of_toNat_eq (Eq.symm ‹_›)
  case h_19 => cases h
  all_goals
    obtain rfl := Except.ok.inj h
    exact BitVec.eq_of_toNat_eq (Eq.symm ‹_›)

/-- A legal word matches the opcode map's row of the command it decodes to. -/
theorem tableRow_of_decode {w : Word} {i : Instr} (h : decode w = .ok i) :
    ∃ row, tableRow i.opcode = some row ∧ w &&& row.2 = row.1 := by
  unfold decode at h
  split at h
  · cases h
  · next row hrow =>
    split_ifs at h with hmask
    exact ⟨row, by rw [opcode_of_decodeFields h, hrow], hmask⟩

/-- A row whose mask holds every bit has one word (format N). -/
theorem word_of_decode {w m : Word} {i : Instr} (h : decode w = .ok i)
    (hrow : tableRow i.opcode = some (m, 0xFFFFFFFF#32)) : w = m := by
  obtain ⟨row, hrow', hmask⟩ := tableRow_of_decode h
  obtain rfl := Option.some.inj (hrow'.symm.trans hrow)
  rwa [show (0xFFFFFFFF#32 : Word) = BitVec.allOnes 32 from rfl, BitVec.and_allOnes] at hmask

/-! ### VALID and the frame it vouches for (rules R25, R143 and R254) -/

/-- The commands that end with VALID at 0 whenever they succeed. -/
def clearsValid (i : Instr) : Bool :=
  match i with
  | .alloc _ => true
  | .setbit _ _ => true
  | .setid _ => true
  | .layout => true
  | .cfgclr => true
  | _ => false

theorem exec_clearsValid {i : Instr} {s t : State} (hi : clearsValid i = true) (h : exec i s = .next t) :
    (∃ e, t = s.withError e) ∨ t.valid = false := by
  cases i with
  | alloc =>
    rcases execAlloc_cases _ _ _ h with ⟨-, rfl⟩ | ⟨-, rfl⟩
    · exact .inl ⟨_, rfl⟩
    · exact .inr rfl
  | setbit =>
    rcases execSetbit_cases _ _ _ _ h with ⟨-, rfl⟩ | ⟨-, rfl⟩
    · exact .inl ⟨_, rfl⟩
    · exact .inr rfl
  | setid => obtain rfl := execSetid_cases _ _ _ h; exact .inr rfl
  | layout =>
    rcases execLayout_cases _ _ h with ⟨-, rfl⟩ | ⟨-, rfl⟩
    · exact .inl ⟨_, rfl⟩
    · exact .inr rfl
  | cfgclr => obtain rfl := execCfgclr_cases _ _ h; exact .inr rfl
  | _ => cases hi

/-- The buffer passes the gate of FRAMECHK (rule R143). -/
structure FramePasses (s : State) : Prop where
  length : 2 ≤ s.len.toNat
  identity : Memory.read s.mem 0 = s.ident
  checksum : crc16 s.payload = s.trailer

/-- The state a FRAMECHK that passes leaves (rule R143). -/
def State.withPass (s : State) : State := State.withOk { s.withCrc with valid := true, disc := false, fres := .pass }

theorem execFramechk_valid {s t : State} (h : execFramechk s = .next t) (hv : t.valid = true) :
    FramePasses s ∧ t = s.withPass := by
  rcases execFramechk_cases _ _ h with ⟨-, rfl⟩ | ⟨-, -, rfl⟩ | ⟨hlen, hident, hcrc, rfl⟩ | ⟨-, -, -, rfl⟩
  · cases hv
  · cases hv
  · exact ⟨⟨hlen, hident, hcrc⟩, rfl⟩
  · cases hv

/-- How a command can end with VALID = 1: with an error, as a FRAMECHK that passes, or as a command that leaves a VALID
of 1 alone. -/
theorem exec_valid_cases {i : Instr} {s t : State} (h : exec i s = .next t) (hv : t.valid = true) :
    (∃ e, t = s.withError e) ∨ (i = .framechk ∧ FramePasses s ∧ t = s.withPass) ∨
      (i ≠ .framechk ∧ clearsValid i = false ∧ s.valid = true) := by
  by_cases hi : clearsValid i = true
  · rcases exec_clearsValid hi h with herr | hv'
    · exact .inl herr
    · simp [hv'] at hv
  by_cases hf : i = .framechk
  · subst hf
    exact .inr (.inl ⟨rfl, execFramechk_valid h hv⟩)
  · refine .inr (.inr ⟨hf, by simpa using hi, ?_⟩)
    by_contra hs
    rcases (exec_onlyNamedWrites h).valid (by simp [hv, hs]) with rfl | ⟨n, rfl⟩ | ⟨j, v, rfl⟩ | ⟨x, rfl⟩ | rfl | rfl
    · exact hf rfl
    all_goals exact hi rfl

/-- What VALID = 1 vouches for (rule R254). -/
structure SameFrame (s t : State) : Prop where
  mem : t.mem = s.mem
  len : t.len = s.len
  ident : t.ident = s.ident
  lock : t.lock = s.lock
  tlen : t.tlen = s.tlen

/-- A command that changes what VALID vouches for clears VALID. -/
theorem exec_sameFrame {i : Instr} {s t : State} (h : exec i s = .next t) (hv : t.valid = true) : SameFrame s t := by
  rcases exec_valid_cases h hv with ⟨e, rfl⟩ | ⟨-, -, rfl⟩ | ⟨-, hi, -⟩
  · exact ⟨rfl, rfl, rfl, rfl, rfl⟩
  · exact ⟨rfl, rfl, rfl, rfl, rfl⟩
  · have hw := exec_onlyNamedWrites h
    constructor <;> by_contra hne
    case mem => rcases hw.mem hne with ⟨n, rfl⟩ | ⟨j, v, rfl⟩ <;> cases hi
    case len => obtain ⟨n, rfl, -⟩ := hw.len hne; cases hi
    case ident => obtain ⟨x, rfl, -⟩ := hw.ident hne; cases hi
    case lock => rcases hw.lock hne with rfl | rfl <;> cases hi
    case tlen => rcases hw.tlen hne with rfl | rfl <;> cases hi

theorem exec_framePasses {i : Instr} {s t : State} (h : exec i s = .next t) (hs : s.valid = false)
    (hv : t.valid = true) : i = .framechk ∧ FramePasses s := by
  rcases exec_valid_cases h hv with ⟨e, rfl⟩ | ⟨hi, hpass, -⟩ | ⟨-, -, hs'⟩
  · simp [hs] at hv
  · exact ⟨hi, hpass⟩
  · simp [hs] at hs'

/-- How a step can end with VALID = 1: it runs a command, or it leaves VALID and the frame alone. A buffer write and a
reset clear VALID. -/
theorem step_valid_cases {s t : State} (h : step s = .next t) (hv : t.valid = true) :
    (SameFrame s t ∧ s.valid = true) ∨
      ∃ rest w i, s.inputs = .write s.blockBase 4 w :: rest ∧ decode w = .ok i ∧
        exec i { s with inputs := rest, cmdLast := w } = .next t := by
  rcases step_outcomes s t h with ⟨-, rfl⟩ | ⟨rest, -, rfl⟩ | ⟨rest, a, n, -, hread⟩ | hexec |
    ⟨rest, w, e, -, -, rfl⟩ | ⟨rest, a, n, d, -, hwrite⟩
  · exact .inl ⟨⟨rfl, rfl, rfl, rfl, rfl⟩, hv⟩
  · cases hv
  · rcases hread with ⟨v, rfl⟩ | ⟨e, -, rfl⟩ <;> exact .inl ⟨⟨rfl, rfl, rfl, rfl, rfl⟩, hv⟩
  · exact .inr hexec
  · exact .inl ⟨⟨rfl, rfl, rfl, rfl, rfl⟩, hv⟩
  · rcases hwrite with rfl | rfl | ⟨j, -, rfl⟩ | ⟨e, -, rfl⟩
    · exact .inl ⟨⟨rfl, rfl, rfl, rfl, rfl⟩, hv⟩
    · exact .inl ⟨⟨rfl, rfl, rfl, rfl, rfl⟩, hv⟩
    · cases hv
    · exact .inl ⟨⟨rfl, rfl, rfl, rfl, rfl⟩, hv⟩

/-- Settles O50: a command by `exec_sameFrame` and `exec_framePasses`. -/
theorem validMeansACheckedUnchangedFrame : Obligations.ValidMeansACheckedUnchangedFrame := by
  intro s t h hv
  rcases step_valid_cases h hv with ⟨⟨hmem, hlen, hident, hlock, htlen⟩, hs'⟩ | ⟨rest, w, i, hin, hw, hexec⟩
  · exact ⟨⟨hmem, hlen, hident, hlock, htlen⟩, fun hs => by simp [hs] at hs'⟩
  · obtain ⟨hmem, hlen, hident, hlock, htlen⟩ := exec_sameFrame hexec hv
    refine ⟨⟨hmem, hlen, hident, hlock, htlen⟩, fun hs => ?_⟩
    obtain ⟨rfl, hpass⟩ := exec_framePasses hexec hs hv
    obtain rfl := word_of_decode hw rfl
    exact ⟨⟨rest, hin⟩, hpass.length, hpass.identity, hpass.checksum⟩

/-! ### What STATUS's fields say of each other (rules R25, R143 and R221) -/

/-- An error is recorded with STICKY, and leaves the gate's fields alone. -/
theorem StatusOk.withError {s : State} (hs : StatusOk s) (e : Code) : StatusOk (s.withError e) where
  errors _ := rfl
  gate := hs.gate

theorem exec_gate {i : Instr} {s t : State} (hinv : Invariant s) (hs : StatusOk s) (h : exec i s = .next t)
    (hv : t.valid = true) : t.fres = .pass ∧ t.disc = false ∧ t.crcok = true := by
  rcases exec_valid_cases h hv with ⟨e, rfl⟩ | ⟨-, hpass, rfl⟩ | ⟨hf, hi, hsv⟩
  · exact hs.gate hv
  · exact ⟨rfl, rfl, by simpa [State.withPass] using hpass.checksum⟩
  obtain ⟨hfres, hdisc, hcrcok⟩ := hs.gate hsv
  have hw := exec_onlyNamedWrites h
  refine ⟨?_, ?_, ?_⟩ <;> by_contra hne
  · rcases hw.fres fun heq => hne (heq.trans hfres) with rfl | rfl
    · exact hf rfl
    · cases hi
  · rcases hw.disc fun heq => hne (heq.trans hdisc) with rfl | rfl
    · exact hf rfl
    · cases hi
  · rcases hw.crcok fun heq => hne (heq.trans hcrcok) with rfl | rfl | ⟨n, rfl⟩
    · rcases execCrcgen_cases _ _ h with ⟨-, rfl⟩ | ⟨-, rfl⟩
      · exact hne hcrcok
      · exact hne (by simpa using (hinv.frame hsv).2.2)
    · exact hf rfl
    · cases hi

theorem exec_statusOk {i : Instr} {s t : State} (hinv : Invariant s) (hs : StatusOk s) (h : exec i s = .next t) :
    StatusOk t where
  errors hne := by
    rcases exec_endsWell i s t h with ⟨e, -, rfl⟩ | ⟨hok, -⟩
    · rfl
    · exact absurd hok hne
  gate := exec_gate hinv hs h

/-- Settles O56, by the outcomes of a step: a command by `exec_statusOk`; a buffer write and a reset end with VALID at
0, and every other access leaves the gate's fields alone. -/
theorem everyStepKeepsTheStatusConsistent : Obligations.EveryStepKeepsTheStatusConsistent := by
  intro s t hinv hs h
  rcases step_outcomes s t h with ⟨-, rfl⟩ | ⟨rest, -, rfl⟩ | ⟨rest, a, n, -, hread⟩ | ⟨rest, w, i, -, -, hexec⟩ |
    ⟨rest, w, e, -, -, rfl⟩ | ⟨rest, a, n, d, -, hwrite⟩
  · exact hs
  · exact ⟨fun hne => absurd rfl hne, fun hv => by cases hv⟩
  · rcases hread with ⟨v, rfl⟩ | ⟨e, -, rfl⟩
    · exact { hs with }
    · exact { hs.withError e with }
  · refine exec_statusOk (hinv.setRegisters ..) ?_ hexec
    exact { hs with }
  · exact { hs.withError .illegal with }
  · rcases hwrite with rfl | rfl | ⟨j, -, rfl⟩ | ⟨e, -, rfl⟩
    · exact { hs with }
    · exact { hs with }
    · exact { hs with gate := fun hv => by cases hv }
    · exact { hs.withError e with }

/-! ### DISC (rules R25 and R143) -/

/-- A command that sets DISC is a FRAMECHK whose identity byte fails. -/
theorem exec_sets_disc {i : Instr} {s t : State} (h : exec i s = .next t) (hs : s.disc = false) (ht : t.disc = true) :
    i = .framechk ∧ (s.len.toNat = 0 ∨ Memory.read s.mem 0 ≠ s.ident) := by
  rcases (exec_onlyNamedWrites h).disc (by simp [hs, ht]) with rfl | rfl
  · rcases execFramechk_cases _ _ h with ⟨hfail, rfl⟩ | ⟨-, -, rfl⟩ | ⟨-, -, -, rfl⟩ | ⟨-, -, -, rfl⟩
    · exact ⟨rfl, hfail⟩
    all_goals simp [hs] at ht
  · rcases execLayout_cases _ _ h with ⟨-, rfl⟩ | ⟨-, rfl⟩ <;> simp [hs] at ht

/-- A command that clears DISC is LAYOUT or a FRAMECHK that passes; a checksum failure leaves it (C8). -/
theorem exec_clears_disc {i : Instr} {s t : State} (h : exec i s = .next t) (hs : s.disc = true)
    (ht : t.disc = false) : i = .layout ∨ (i = .framechk ∧ t.fres = .pass) := by
  rcases (exec_onlyNamedWrites h).disc (by simp [hs, ht]) with rfl | rfl
  · rcases execFramechk_cases _ _ h with ⟨-, rfl⟩ | ⟨-, -, rfl⟩ | ⟨-, -, -, rfl⟩ | ⟨-, -, -, rfl⟩
    case inr.inr.inl => exact .inr ⟨rfl, rfl⟩
    all_goals simp [hs] at ht
  · exact .inl rfl

/-- A step that changes DISC is a reset, which clears it, or a command. -/
theorem step_writes_disc {s t : State} (h : step s = .next t) (hne : t.disc ≠ s.disc) :
    (∃ rest, s.inputs = .reset :: rest ∧ t.disc = false) ∨
      ∃ rest w i, s.inputs = .write s.blockBase 4 w :: rest ∧ decode w = .ok i ∧
        exec i { s with inputs := rest, cmdLast := w } = .next t := by
  rcases step_outcomes s t h with ⟨-, rfl⟩ | ⟨rest, hin, rfl⟩ | ⟨rest, a, n, -, hread⟩ | hexec |
    ⟨rest, w, e, -, -, rfl⟩ | ⟨rest, a, n, d, -, hwrite⟩
  · exact absurd rfl hne
  · exact .inl ⟨rest, hin, rfl⟩
  · rcases hread with ⟨v, rfl⟩ | ⟨e, -, rfl⟩ <;> exact absurd rfl hne
  · exact .inr hexec
  · exact absurd rfl hne
  · rcases hwrite with rfl | rfl | ⟨j, -, rfl⟩ | ⟨e, -, rfl⟩ <;> exact absurd rfl hne

/-- Settles O51. -/
theorem discFollowsTheIdentityByte : Obligations.DiscFollowsTheIdentityByte := by
  intro s t h
  refine ⟨fun hs ht => ?_, fun hs ht => ?_⟩
  · rcases step_writes_disc h (by simp [hs, ht]) with ⟨rest, -, ht'⟩ | ⟨rest, w, i, hin, hw, hexec⟩
    · simp [ht] at ht'
    · obtain ⟨rfl, hfail⟩ := exec_sets_disc hexec hs ht
      obtain rfl := word_of_decode hw rfl
      exact ⟨⟨rest, hin⟩, hfail⟩
  · rcases step_writes_disc h (by simp [hs, ht]) with ⟨rest, hin, -⟩ | ⟨rest, w, i, hin, hw, hexec⟩
    · exact ⟨rest, .inl hin⟩
    · rcases exec_clears_disc hexec hs ht with rfl | ⟨rfl, hpass⟩ <;> obtain rfl := word_of_decode hw rfl
      · exact ⟨rest, .inr (.inl hin)⟩
      · exact ⟨rest, .inr (.inr ⟨hin, hpass⟩)⟩


/-! ### What a register reads as (rules R22 and R65) -/

theorem regOffset_lt (r : Reg) : regOffset r < 0x100 := by
  cases r with
  | ptab b slot => simp only [regOffset]; omega
  | _ => decide

theorem regOffset_aligned (r : Reg) : regOffset r % 4 = 0 := by
  cases r with
  | ptab b slot => simp only [regOffset]; omega
  | _ => rfl

/-- The offset of a register names that register and no other (rules R22 and R37). -/
theorem regAt_regOffset (r : Reg) : regAt (regOffset r) = some r := by
  cases r with
  | ptab b slot =>
    have hb : (0x40 + 4 * (16 * b.val + slot.val) - 0x40) / 4 / 16 = b.val := by omega
    have hslot : Fin.ofNat 16 ((0x40 + 4 * (16 * b.val + slot.val) - 0x40) / 4) = slot := Fin.ext (by simp)
    rw [regOffset, regAt, if_neg (by omega), hb, hslot, Fin.ofNat_val_eq_self]
  | _ => rfl

theorem regValue_inputs (s : State) (rest : List Input) (r : Reg) :
    regValue { s with inputs := rest } r = regValue s r := by
  cases r <;> rfl

/-- A 4-byte read at a register's offset returns its value and does nothing else (rules R63 and R65). -/
theorem registerReads (s : State) (r : Reg) : RegisterReads s (regOffset r) (regValue s r) := by
  intro rest
  simp [step, perform, hostRead, Config.bufWindow, readRegister, regAccessOk, regOffset_lt, regOffset_aligned,
    regAt_regOffset, giveRead, regValue_inputs]

/-! ### The packed words (rules R25, R35 and R37) -/

theorem statusWord_flags (s : State) :
    (statusWord s).getLsbD 4 = s.sticky ∧ (statusWord s).getLsbD 5 = s.valid ∧ (statusWord s).getLsbD 6 = s.disc ∧
      (statusWord s).getLsbD 7 = s.crcok ∧ (statusWord s).getLsbD 8 = s.lock := by
  simp only [statusWord, BitVec.getLsbD_append]
  simp

theorem statusWord_codes (s : State) :
    (statusWord s).extractLsb' 0 4 = codeBits s.code ∧ (statusWord s).extractLsb' 9 2 = fresBits s.fres ∧
      (statusWord s).extractLsb' 11 21 = 0#21 := by
  refine ⟨?_, ?_, ?_⟩
  all_goals
    refine BitVec.eq_of_getLsbD_eq fun j hj => ?_
    simp only [statusWord, BitVec.getLsbD_extractLsb', BitVec.getLsbD_append]
    interval_cases j <;> simp

theorem pcountWord_bus (s : State) (b : Fin 3) :
    (pcountWord s).extractLsb' (8 * b.val) 5 = BitVec.ofNat 5 (s.pcount b) ∧
      (pcountWord s).extractLsb' (8 * b.val + 5) 3 = 0#3 := by
  constructor
  all_goals
    refine BitVec.eq_of_getLsbD_eq fun j hj => ?_
    simp only [pcountWord, BitVec.getLsbD_extractLsb', BitVec.getLsbD_append]
    fin_cases b <;> interval_cases j <;> simp

theorem pcountWord_reserved (s : State) : (pcountWord s).extractLsb' 24 8 = 0#8 := by
  refine BitVec.eq_of_getLsbD_eq fun j hj => ?_
  simp only [pcountWord, BitVec.getLsbD_extractLsb', BitVec.getLsbD_append]
  interval_cases j <;> simp

theorem peripheralWord_valid (p : Peripheral) : (peripheralWord p).getLsbD 0 = true := by
  simp only [peripheralWord, BitVec.getLsbD_append]
  simp

theorem peripheralWord_fields (p : Peripheral) :
    (peripheralWord p).extractLsb' 1 4 = p.type ∧ (peripheralWord p).extractLsb' 5 7 = p.addr ∧
      (peripheralWord p).extractLsb' 12 4 = 0#4 ∧ (peripheralWord p).extractLsb' 16 16 = p.rlen := by
  refine ⟨?_, ?_, ?_, ?_⟩
  all_goals
    refine BitVec.eq_of_getLsbD_eq fun j hj => ?_
    simp only [peripheralWord, BitVec.getLsbD_extractLsb', BitVec.getLsbD_append]
    interval_cases j <;> simp

/-! ### Two-bit codes (rules R31, R32 and R39) -/

theorem packCodes_lt (codes : List (BitVec 2)) : packCodes codes < 4 ^ codes.length := by
  induction codes with
  | nil => simp [packCodes]
  | cons c rest ih =>
    have hc := c.isLt
    simp only [packCodes, List.length_cons, pow_succ]
    omega

/-- In base 4, the codes are the digits of a packed word. -/
theorem packCodes_digit (codes : List (BitVec 2)) (k : Nat) (hk : k < codes.length) :
    packCodes codes / 4 ^ k % 4 = codes[k].toNat := by
  induction codes generalizing k with
  | nil => cases hk
  | cons c rest ih =>
    have hc := c.isLt
    cases k with
    | zero => simp only [packCodes, List.getElem_cons_zero, pow_zero, Nat.div_one]; omega
    | succ k =>
      have hdiv : (c.toNat + 4 * packCodes rest) / 4 = packCodes rest := by omega
      rw [packCodes, Nat.pow_succ', ← Nat.div_div_eq_div_mul, hdiv, List.getElem_cons_succ]
      exact ih k (by simpa using hk)

/-- Code `k` of a packed word is at bits 2k + 1 and 2k. -/
theorem packedWord_code (codes : List (BitVec 2)) (hlen : codes.length ≤ 16) (k : Nat) (hk : k < codes.length) :
    (BitVec.ofNat 32 (packCodes codes)).extractLsb' (2 * k) 2 = codes[k] := by
  have hlt : packCodes codes < 2 ^ 32 := (packCodes_lt codes).trans_le (Nat.pow_le_pow_right (by decide) hlen)
  refine BitVec.eq_of_toNat_eq ?_
  rw [BitVec.extractLsb'_toNat, BitVec.toNat_ofNat, Nat.mod_eq_of_lt hlt, Nat.shiftRight_eq_div_pow, Nat.pow_mul]
  exact packCodes_digit codes k hk

/-- No bit above the last code of a packed word is 1. -/
theorem packedWord_above (codes : List (BitVec 2)) (n : Nat) :
    (BitVec.ofNat 32 (packCodes codes)).extractLsb' (2 * codes.length) n = 0#n := by
  have hlt : packCodes codes % 2 ^ 32 < 2 ^ (2 * codes.length) := by
    rw [Nat.pow_mul]
    exact (Nat.mod_le ..).trans_lt (packCodes_lt codes)
  refine BitVec.eq_of_toNat_eq ?_
  rw [BitVec.extractLsb'_toNat, BitVec.toNat_ofNat, Nat.shiftRight_eq_div_pow, Nat.div_eq_of_lt hlt]
  simp

theorem chmodeWord_code (s : State) (c : Fin 12) :
    (chmodeWord s).extractLsb' (2 * c.val) 2 = chModeCode s.chmode[c] := by
  simpa [chmodeWord] using packedWord_code (s.chmode.toList.map chModeCode) (by simp) c.val (by simp)

theorem chmodeWord_reserved (s : State) : (chmodeWord s).extractLsb' 24 8 = 0#8 := by
  simpa [chmodeWord] using packedWord_above (s.chmode.toList.map chModeCode) 8

theorem encmodeWord_code (s : State) (e : Fin 6) :
    (encmodeWord s).extractLsb' (2 * e.val) 2 = encModeCode s.encmode[e] := by
  simpa [encmodeWord] using packedWord_code (s.encmode.toList.map encModeCode) (by simp) e.val (by simp)

theorem encmodeWord_reserved (s : State) : (encmodeWord s).extractLsb' 12 20 = 0#20 := by
  simpa [encmodeWord] using packedWord_above (s.encmode.toList.map encModeCode) 20

/-- Settles O16. -/
theorem statusReadsItsFields : Obligations.StatusReadsItsFields := by
  intro s
  obtain ⟨hsticky, hvalid, hdisc, hcrcok, hlock⟩ := statusWord_flags s
  obtain ⟨hcode, hfres, hreserved⟩ := statusWord_codes s
  refine ⟨statusWord s, registerReads s .status, ?_, hsticky, hvalid, hdisc, hcrcok, hlock, ?_, hreserved⟩
  · rw [hcode]
    cases s.code <;> rfl
  · rw [hfres]
    cases s.fres <;> rfl

/-- Settles O17: the codes of the modes are 0, 1 and 2. -/
theorem modeRegistersReadTheirCodes : Obligations.ModeRegistersReadTheirCodes := by
  intro s
  refine ⟨⟨chmodeWord s, registerReads s .chmode, chmodeWord_reserved s, fun c => ?_⟩,
    encmodeWord s, registerReads s .encmode, encmodeWord_reserved s, fun e => ?_⟩
  · rw [chmodeWord_code]
    cases s.chmode[c] <;> exact ⟨by decide, rfl⟩
  · rw [encmodeWord_code]
    cases s.encmode[e] <;> exact ⟨by decide, rfl⟩

theorem ptabWord_of_some {s : State} {b : Fin 3} {slot : Nat} {p : Peripheral} (h : s.ptab[b][slot]? = some p) :
    ptabWord s b slot = peripheralWord p := by
  rw [ptabWord, h]

theorem ptabWord_of_pcount_le {s : State} {b : Fin 3} {slot : Nat} (h : s.pcount b ≤ slot) :
    ptabWord s b slot = 0#32 := by
  rw [ptabWord, List.getElem?_eq_none h]

/-- Settles O18. -/
theorem peripheralRegistersReadTheirEntries : Obligations.PeripheralRegistersReadTheirEntries := by
  intro s hcount
  refine ⟨fun b slot => ⟨fun p hp => ?_, fun hslot => ?_⟩, pcountWord s, registerReads s .pcount, fun b => ?_,
    pcountWord_reserved s⟩
  · exact ⟨peripheralWord p, ptabWord_of_some hp ▸ registerReads s (.ptab b slot), peripheralWord_valid p,
      peripheralWord_fields p⟩
  · exact ptabWord_of_pcount_le hslot ▸ registerReads s (.ptab b slot)
  · obtain ⟨hfield, hzero⟩ := pcountWord_bus s b
    rw [hfield, BitVec.toNat_ofNat]
    exact ⟨Nat.mod_eq_of_lt ((hcount b).trans_lt (by decide)), hzero⟩

/-! ### A full bus (rules R40 and R164) -/

/-- There are 16 type tags, so a list of 16 different ones holds them all. -/
theorem mem_of_nodup_of_length {types : List (BitVec 4)} (hnodup : types.Nodup) (hlen : types.length = 16)
    (t : BitVec 4) : t ∈ types := by
  by_contra ht
  have hmore : ((t :: types).map BitVec.toFin).Nodup :=
    (List.nodup_cons.2 ⟨ht, hnodup⟩).map fun a b hab => BitVec.eq_of_toFin_eq hab
  have := hmore.length_le_card
  simp [hlen] at this

/-- ATTACH of a type that the bus has, with a legal reply length, fails with DUPTYPE (rule R164). -/
theorem attachCheck_duptype {s : State} {b : Fin 3} {t : BitVec 4} (a : BitVec 7) (hpos : 0 < s.arg0.toNat)
    (hmax : s.arg0.toNat ≤ 0xFFFF) (ht : t ∈ s.ptab[b].map fun p => p.type) :
    attachCheck s b t a = some .duptype := by
  obtain ⟨p, hp, rfl⟩ := List.mem_map.1 ht
  rw [attachCheck, if_neg (by omega), if_pos (List.any_eq_true.2 ⟨p, hp, by simp⟩)]

theorem execAttach_of_busOf {b : BitVec 2} {k : Fin 3} (hb : busOf b = some k) (t : BitVec 4) (a : BitVec 7)
    {s : State} (hlock : s.lock = false) {e : Code} (he : attachCheck s k t a = some e) :
    execAttach b t a s = .next (s.withError e) := by
  simp [execAttach, hlock, hb, he]

/-- Settles O36: the 16 types of a full bus are all there are. -/
theorem seventeenthAttachRaisesDuptype : Obligations.SeventeenthAttachRaisesDuptype := by
  intro b t a s k hinv hlock hb hpos hmax hfull
  have hbus : busOf b = some k := (numbered_eq_some ..).2 hb
  have ht : t ∈ s.ptab[k].map fun p => p.type :=
    mem_of_nodup_of_length (hinv.types k) ((List.length_map _).trans hfull) t
  exact execAttach_of_busOf hbus t a hlock (attachCheck_duptype a hpos hmax ht)

/-! ### The command port and reset (rules R24, R64 and R250) -/

/-- A word written at CMD is run with the input taken (rules R24 and R64). -/
theorem step_cmd {s : State} {w : Word} {rest : List Input} (hin : s.inputs = .write s.blockBase 4 w :: rest) :
    step s = runCommand w { s with inputs := rest } := by
  rw [step, hin]
  exact hostWrite_cmd w { s with inputs := rest }

theorem runCommand_of_ok {w : Word} {i : Instr} (hw : decode w = .ok i) (s : State) :
    runCommand w s = exec i { s with cmdLast := w } := by
  rw [runCommand, hw]

theorem runCommand_of_error {w : Word} {e : DecodeError} (hw : decode w = .error e) (s : State) :
    runCommand w s = .next (State.withError .illegal { s with cmdLast := w }) := by
  rw [runCommand, hw, raise_eq]

/-- Settles O6. -/
theorem stepRunsTheDecodedCommand : Obligations.StepRunsTheDecodedCommand := by
  intro s w rest i hin hw
  rw [step_cmd hin, runCommand_of_ok hw]

/-- Settles O7: a legal word's command answers and leaves CMD_LAST alone; an illegal word is recorded as ILLEGAL. -/
theorem cmdReadsTheLastWordWritten : Obligations.CmdReadsTheLastWordWritten := by
  intro s w rest hin
  rw [step_cmd hin]
  cases hw : decode w with
  | ok i =>
    obtain ⟨t, ht⟩ := exec_answers i { s with inputs := rest, cmdLast := w }
    have hwrites := exec_onlyNamedWrites ht
    refine ⟨t, by rw [runCommand_of_ok hw, ht], hwrites.inputs, hwrites.blockBase, ?_, ?_, ?_⟩
    · have hlast : t.cmdLast = w := hwrites.cmdLast
      exact hlast ▸ registerReads t .cmd
    · rintro _ ⟨⟩
      exact ht
    · rintro ⟨e, ⟨⟩⟩
  | error e =>
    refine ⟨_, runCommand_of_error hw _, rfl, rfl, registerReads _ .cmd, ?_, fun _ => rfl⟩
    rintro _ ⟨⟩

/-- Settles O8. -/
theorem idleStepChangesNothing : Obligations.IdleStepChangesNothing := by
  intro s h
  rw [step, h]

/-- Settles O15: RESULT_HI and RESULT_LO are the halves of RESULT, and a narrow register loses nothing in 32 bits. -/
theorem registersReadTheirState : Obligations.RegistersReadTheirState := by
  intro s
  refine ⟨registerReads s .cmd, registerReads s .arg0,
    ⟨_, _, registerReads s .resultLo, registerReads s .resultHi, ?_⟩,
    ⟨_, registerReads s .len, BitVec.toNat_setWidth_of_le (by decide)⟩,
    ⟨_, registerReads s .crc, BitVec.toNat_setWidth_of_le (by decide)⟩, registerReads s .cursor,
    ⟨_, registerReads s .ident, BitVec.toNat_setWidth_of_le (by decide)⟩,
    ⟨_, registerReads s .tlen, BitVec.toNat_setWidth_of_le (by decide)⟩, fun hcap => ⟨_, registerReads s .bufcap, ?_⟩⟩
  · exact (BitVec.extractLsb'_append_extractLsb'_eq_extractLsb' rfl).trans BitVec.extractLsb'_eq_self
  · simpa [regValue] using hcap

/-- Settles O53. -/
theorem invariantsHoldAtReset : Obligations.InvariantsHoldAtReset := by
  refine ⟨.of_unlocked (by decide) (by decide) (fun b => ?_) rfl rfl (fun hv => by cases hv), memoryOk_of_empty rfl,
    fun hne => absurd rfl hne, fun hv => by cases hv⟩
  simpa [Block.reset] using busOk_nil

end Sys2Proof.Machine

namespace Sys2Proof.Machine

/-! ### The routing of a host access (rules R60 to R62) -/

theorem step_read {s : State} {addr n : Nat} {rest : List Input} (hin : s.inputs = .read addr n :: rest) :
    step s = hostRead addr n { s with inputs := rest } := by
  rw [step, hin]
  rfl

theorem step_write {s : State} {addr n : Nat} {v : Word} {rest : List Input}
    (hin : s.inputs = .write addr n v :: rest) : step s = hostWrite addr n v { s with inputs := rest } := by
  rw [step, hin]
  rfl

theorem hostRead_below (s : State) {addr : Nat} (h : addr < s.blockBase) (n : Nat) :
    hostRead addr n s = .fault (.outsideWindow addr) := if_pos h

theorem hostWrite_below (s : State) {addr : Nat} (h : addr < s.blockBase) (n : Nat) (v : Word) :
    hostWrite addr n v s = .fault (.outsideWindow addr) := if_pos h

theorem hostRead_register (s : State) {off : Nat} (h : off < 0x100) (n : Nat) :
    hostRead (s.blockBase + off) n s = readRegister off n s := by
  simp [hostRead, Config.bufWindow, h]

theorem hostWrite_register (s : State) {off : Nat} (h : off < 0x100) (n : Nat) (v : Word) :
    hostWrite (s.blockBase + off) n v s = writeRegister off n v s := by
  simp [hostWrite, Config.bufWindow, h]

theorem hostRead_buffer (s : State) (j n : Nat) : hostRead (s.blockBase + 0x100 + j) n s = readBuffer j n s := by
  simp [hostRead, Config.bufWindow, Nat.add_assoc]

theorem hostWrite_buffer (s : State) (j n : Nat) (v : Word) :
    hostWrite (s.blockBase + 0x100 + j) n v s = writeBuffer j n v s := by
  simp [hostWrite, Config.bufWindow, Nat.add_assoc]

/-- Settles O9. -/
theorem accessBelowTheWindowStops : Obligations.AccessBelowTheWindowStops := by
  intro s addr n v rest hbelow
  exact ⟨fun hin => (step_read hin).trans (hostRead_below { s with inputs := rest } hbelow n),
    fun hin => (step_write hin).trans (hostWrite_below { s with inputs := rest } hbelow n v)⟩

/-! ### The register file (rules R63 to R65) -/

theorem regAccessOk_eq_true (off n : Nat) : regAccessOk off n = true ↔ n = 4 ∧ off % 4 = 0 := by
  simp [regAccessOk]

/-- A read of the wrong width or alignment, or of an unmapped offset, records BUSACC and returns 0. -/
theorem readRegister_fails {off n : Nat} (h : n ≠ 4 ∨ off % 4 ≠ 0 ∨ regAt off = none) (s : State) :
    readRegister off n s = failRead .busacc s := by
  unfold readRegister
  split_ifs with hok
  · obtain ⟨hn, halign⟩ := (regAccessOk_eq_true off n).1 hok
    have hnone : regAt off = none := by tauto
    rw [hnone]
  · rfl

/-- A write of the wrong width or alignment, or at an offset other than CMD, ARG0 and CURSOR, records BUSACC. -/
theorem writeRegister_fails {off n : Nat}
    (h : n ≠ 4 ∨ off % 4 ≠ 0 ∨ (off ≠ 0x00 ∧ off ≠ 0x08 ∧ off ≠ 0x20)) (v : Word) (s : State) :
    writeRegister off n v s = raise .busacc s := by
  unfold writeRegister
  split_ifs with hok
  · obtain ⟨hn, halign⟩ := (regAccessOk_eq_true off n).1 hok
    obtain ⟨hcmd, harg0, hcursor⟩ : off ≠ 0x00 ∧ off ≠ 0x08 ∧ off ≠ 0x20 := by tauto
    split
    · next hr => exact absurd ((regAt_cases off _ hr).1 rfl) hcmd
    · next hr => exact absurd ((regAt_cases off _ hr).2.1 rfl) harg0
    · next hr => exact absurd ((regAt_cases off _ hr).2.2 rfl) hcursor
    · rfl
  · rfl

theorem writeRegister_arg0 (v : Word) (s : State) : writeRegister 0x08 4 v s = .next { s with arg0 := v } := rfl

theorem writeRegister_cursor (v : Word) (s : State) : writeRegister 0x20 4 v s = .next { s with cursor := v } := rfl

/-- Settles O14: the access is routed to the register file, and no register is at 0x0C or 0x3C. -/
theorem registerFileAccess : Obligations.RegisterFileAccess := by
  intro s off n v rest hoff
  refine ⟨fun hin hbad => ?_, fun hin => ?_⟩
  · have hfails : n ≠ 4 ∨ off % 4 ≠ 0 ∨ regAt off = none := by
      rcases hbad with hn | halign | rfl | rfl
      · exact .inl hn
      · exact .inr (.inl halign)
      · exact .inr (.inr rfl)
      · exact .inr (.inr rfl)
    have hstep : step s = readRegister off n { s with inputs := rest } :=
      (step_read hin).trans (hostRead_register { s with inputs := rest } hoff n)
    exact hstep.trans (readRegister_fails hfails _)
  · have hstep : step s = writeRegister off n v { s with inputs := rest } :=
      (step_write hin).trans (hostWrite_register { s with inputs := rest } hoff n v)
    refine ⟨fun hbad => hstep.trans (writeRegister_fails hbad v _), ?_, ?_⟩
    · rintro rfl rfl
      exact hstep.trans (writeRegister_arg0 v _)
    · rintro rfl rfl
      exact hstep.trans (writeRegister_cursor v _)

/-! ### The BUF window (rules R62 and R66) -/

theorem bufCheck_of_illegal {s : State} {j n : Nat}
    (h : (n ≠ 1 ∧ n ≠ 2 ∧ n ≠ 4) ∨ j % n ≠ 0 ∨ s.bufCap < j + n) : bufCheck s j n = some .busacc := if_pos h

/-- An access that is the block's but ends past LEN fails its second check. -/
theorem bufCheck_of_past_len {s : State} {j n : Nat} (hn : n = 1 ∨ n = 2 ∨ n = 4) (halign : j % n = 0)
    (hcap : j + n ≤ s.bufCap) (hlen : s.len.toNat < j + n) : bufCheck s j n = some .oob := by
  have hlegal : ¬((n ≠ 1 ∧ n ≠ 2 ∧ n ≠ 4) ∨ j % n ≠ 0 ∨ s.bufCap < j + n) := by omega
  rw [bufCheck, if_neg hlegal, if_pos hlen]

/-- A window read that fails a check records its error and returns 0 (rules R62 and R221). -/
theorem step_read_buffer_fails {s : State} {j n : Nat} {rest : List Input} {e : Code}
    (hin : s.inputs = .read (s.blockBase + 0x100 + j) n :: rest) (he : bufCheck s j n = some e) :
    step s = .next { s with inputs := rest, rdata := 0#32, code := e, sticky := true } := by
  have hread : readBuffer j n { s with inputs := rest } = failRead e { s with inputs := rest } := by
    rw [readBuffer, show bufCheck { s with inputs := rest } j n = some e from he]
  exact (step_read hin).trans ((hostRead_buffer _ j n).trans hread)

/-- A window write that fails a check records its error and changes no byte (rules R62 and R221). -/
theorem step_write_buffer_fails {s : State} {j n : Nat} {v : Word} {rest : List Input} {e : Code}
    (hin : s.inputs = .write (s.blockBase + 0x100 + j) n v :: rest) (he : bufCheck s j n = some e) :
    step s = .next { s with inputs := rest, code := e, sticky := true } := by
  have hwrite : writeBuffer j n v { s with inputs := rest } = raise e { s with inputs := rest } := by
    rw [writeBuffer, show bufCheck { s with inputs := rest } j n = some e from he]
  exact (step_write hin).trans ((hostWrite_buffer _ j n v).trans hwrite)

/-- Byte `k` of the word that a read of `n` bytes returns is buffer byte `j + k`, and 0 above the bytes read. -/
theorem Memory.extractLsb'_readBytes (m : Memory) (j n k : Nat) (hk : k < 4) :
    (BitVec.ofNat 32 (Memory.readBytes m j n)).extractLsb' (8 * k) 8 =
      if k < n then Memory.read m (j + k) else 0#8 := by
  refine BitVec.eq_of_getLsbD_eq fun i hi => ?_
  have hbyte : (8 * j + (8 * k + i)) / 8 = j + k := by omega
  have hplace : (8 * j + (8 * k + i)) % 8 = i := by omega
  have hword : 8 * k + i < 32 := by omega
  rw [BitVec.getLsbD_extractLsb', BitVec.getLsbD_ofNat, testBit_readBytes, Memory.bit, hbyte, hplace]
  by_cases hkn : k < n
  · have hlow : 8 * k + i < 8 * n := by omega
    simp [hkn, hi, hword, hlow]
  · have hhigh : ¬8 * k + i < 8 * n := by omega
    simp [hkn, hhigh]

/-- Settles O13: the checks in their order, and then the bytes one by one. -/
theorem bufferWindowAccess : Obligations.BufferWindowAccess := by
  intro s j n v rest
  refine ⟨fun hin => ⟨fun hbad => step_read_buffer_fails hin (bufCheck_of_illegal hbad), fun hn halign hcap =>
      ⟨fun hlen => step_read_buffer_fails hin (bufCheck_of_past_len hn halign hcap hlen), fun hlen => ?_⟩⟩,
    fun hin => ⟨fun hbad => step_write_buffer_fails hin (bufCheck_of_illegal hbad), fun hn halign hcap =>
      ⟨fun hlen => step_write_buffer_fails hin (bufCheck_of_past_len hn halign hcap hlen), fun hlen => ?_⟩⟩⟩
  all_goals have hc : bufCheck s j n = none := (bufCheck_eq_none s j n).2 ⟨hn, halign, hcap, hlen⟩
  · exact ⟨_, step_read_buffer s j n rest hc hin, fun k hk => Memory.extractLsb'_readBytes s.mem j n k hk⟩
  · exact ⟨_, step_write_buffer s j n v rest hc hin, fun a => Memory.read_writeBytes s.mem j n a v⟩

end Sys2Proof.Machine

namespace Sys2Proof.Machine

/-! ### The codes of a field are read back (rules R93 and R97) -/

theorem kindCode_of_kindOf {c : BitVec 2} {k : Kind} (h : kindOf c = some k) : kindCode k = c := by
  cases k <;> revert c <;> decide

theorem widthCode_widthOf (c : BitVec 2) : widthCode (widthOf c) = c := by
  revert c
  decide

theorem partCode_partOf (c : BitVec 1) : partCode (partOf c) = c := by
  revert c
  decide

/-- K = 3 is the one reserved kind (rule R93). -/
theorem kindOf_eq_none_iff (c : BitVec 2) : kindOf c = none ↔ c = 3#2 := by
  revert c
  decide

/-- Kind F is illegal with WC < 2, and no other pair of kind and width is (rule R101). -/
theorem legalKind_eq_false_iff {c : BitVec 2} {k : Kind} (h : kindOf c = some k) (d : BitVec 2) :
    legalKind k (widthOf d) = false ↔ c = 2#2 ∧ d.toNat < 2 := by
  obtain rfl := kindCode_of_kindOf h
  cases k <;> revert d <;> decide

/-! ### Decoding a word that was encoded (rules R90 to R99) -/

/-- The word of every command is of the row of its opcode (rule R99). -/
theorem tableRow_encode (i : Instr) : Laws.TableRow.Statement i := by
  cases i with
  | nop => exact Laws.TableRow.nop
  | clrerr => exact Laws.TableRow.clrerr
  | alloc n => exact Laws.TableRow.alloc n
  | setbit idx v => exact Laws.TableRow.setbit idx v
  | getbit idx => exact Laws.TableRow.getbit idx
  | getrange l k w => exact Laws.TableRow.getrange l k w
  | getnext l k w => exact Laws.TableRow.getnext l k w
  | crcgen => exact Laws.TableRow.crcgen
  | framechk => exact Laws.TableRow.framechk
  | setch c m => exact Laws.TableRow.setch c m
  | setenc e m => exact Laws.TableRow.setenc e m
  | attach b t a => exact Laws.TableRow.attach b t a
  | setid x => exact Laws.TableRow.setid x
  | layout => exact Laws.TableRow.layout
  | cfgclr => exact Laws.TableRow.cfgclr
  | fxch c => exact Laws.TableRow.fxch c
  | fxenc e p => exact Laws.TableRow.fxenc e p
  | fxper b slot => exact Laws.TableRow.fxper b slot

/-- A word of its opcode's row is read by its fields. -/
theorem decode_of_matches {w : Word} {row : Word × Word} (hrow : tableRow (opcodeOf w) = some row)
    (hw : w &&& row.2 = row.1) : decode w = decodeFields (opcodeOf w) w := by
  rw [decode, hrow]
  exact if_pos hw

/-- A format R word with a legal pair of kind and width is read as its three operands. -/
theorem decodeRange_formatR (mk : BitVec 7 → Kind → Width → Instr) (l : BitVec 7) {k : Kind} {wd : Width}
    (hlegal : legalKind k wd = true) (op : BitVec 8) :
    decodeRange mk (formatR (widthCode wd) (kindCode k) l op) = .ok (mk l k wd) := by
  simp [decodeRange, hlegal]

/-- Every operand is read from the field it was written to. -/
theorem decodeFields_encode {i : Instr} (h : i.wellFormed = true) : decodeFields i.opcode (encode i) = .ok i := by
  cases i with
  | nop | clrerr | crcgen | framechk | layout | cfgclr => rfl
  | getrange l k w => exact decodeRange_formatR .getrange l h 0x05#8
  | getnext l k w => exact decodeRange_formatR .getnext l h 0x06#8
  | alloc | setbit | getbit | setch | setenc | attach | setid | fxch | fxenc | fxper =>
    simp [decodeFields, encode, Instr.opcode]

/-- Settles O1: the word is of its opcode's row, and then its fields are read back. -/
theorem decodeOfEncode : Obligations.DecodeOfEncode := by
  intro i hwf
  obtain ⟨hop, row, hrow, hmask⟩ := tableRow_encode i
  rw [decode_of_matches (hop ▸ hrow) hmask, hop, decodeFields_encode hwf]

/-! ### Encoding what a word decodes to (rules R90 to R99 and R101) -/

theorem formatI_operands (w : Word) (op : BitVec 8) :
    formatI (w.extractLsb' 16 16) (w.getLsbD 8) op &&& ~~~0x0000FEFF#32 = w &&& ~~~0x0000FEFF#32 := by
  refine BitVec.eq_of_getLsbD_eq fun j hj => ?_
  simp only [formatI, BitVec.getLsbD_and, BitVec.getLsbD_append]
  interval_cases j <;> simp

/-- The V bit is fixed in ALLOC and GETBIT, so IDX alone is an operand. -/
theorem formatI_operand_idx (w : Word) (op : BitVec 8) :
    formatI (w.extractLsb' 16 16) false op &&& ~~~0x0000FFFF#32 = w &&& ~~~0x0000FFFF#32 := by
  refine BitVec.eq_of_getLsbD_eq fun j hj => ?_
  simp only [formatI, BitVec.getLsbD_and, BitVec.getLsbD_append]
  interval_cases j <;> simp

theorem formatR_operands (w : Word) (op : BitVec 8) :
    formatR (w.extractLsb' 18 2) (w.extractLsb' 16 2) (w.extractLsb' 8 7) op &&& ~~~0xFFF080FF#32 =
      w &&& ~~~0xFFF080FF#32 := by
  refine BitVec.eq_of_getLsbD_eq fun j hj => ?_
  simp only [formatR, BitVec.getLsbD_and, BitVec.getLsbD_append]
  interval_cases j <;> simp

theorem formatM_operands (w : Word) (op : BitVec 8) :
    formatM (w.extractLsb' 12 2) (w.extractLsb' 8 4) op &&& ~~~0xFFFFC0FF#32 = w &&& ~~~0xFFFFC0FF#32 := by
  refine BitVec.eq_of_getLsbD_eq fun j hj => ?_
  simp only [formatM, BitVec.getLsbD_and, BitVec.getLsbD_append]
  interval_cases j <;> simp

theorem formatA_operands (w : Word) (op : BitVec 8) :
    formatA (w.extractLsb' 14 7) (w.extractLsb' 10 4) (w.extractLsb' 8 2) op &&& ~~~0xFFE000FF#32 =
      w &&& ~~~0xFFE000FF#32 := by
  refine BitVec.eq_of_getLsbD_eq fun j hj => ?_
  simp only [formatA, BitVec.getLsbD_and, BitVec.getLsbD_append]
  interval_cases j <;> simp

theorem formatB_operands (w : Word) (op : BitVec 8) :
    formatB (w.extractLsb' 8 8) op &&& ~~~0xFFFF00FF#32 = w &&& ~~~0xFFFF00FF#32 := by
  refine BitVec.eq_of_getLsbD_eq fun j hj => ?_
  simp only [formatB, BitVec.getLsbD_and, BitVec.getLsbD_append]
  interval_cases j <;> simp

theorem formatF_operands (w : Word) (op : BitVec 8) :
    formatF (w.extractLsb' 12 1) (w.extractLsb' 8 4) op &&& ~~~0xFFFFE0FF#32 = w &&& ~~~0xFFFFE0FF#32 := by
  refine BitVec.eq_of_getLsbD_eq fun j hj => ?_
  simp only [formatF, BitVec.getLsbD_and, BitVec.getLsbD_append]
  interval_cases j <;> simp

/-- The PART bit is fixed in FXCH, so CH alone is an operand. -/
theorem formatF_operand_ch (w : Word) (op : BitVec 8) :
    formatF 0#1 (w.extractLsb' 8 4) op &&& ~~~0xFFFFF0FF#32 = w &&& ~~~0xFFFFF0FF#32 := by
  refine BitVec.eq_of_getLsbD_eq fun j hj => ?_
  simp only [formatF, BitVec.getLsbD_and, BitVec.getLsbD_append]
  interval_cases j <;> simp

theorem formatP_operands (w : Word) (op : BitVec 8) :
    formatP (w.extractLsb' 10 4) (w.extractLsb' 8 2) op &&& ~~~0xFFFFC0FF#32 = w &&& ~~~0xFFFFC0FF#32 := by
  refine BitVec.eq_of_getLsbD_eq fun j hj => ?_
  simp only [formatP, BitVec.getLsbD_and, BitVec.getLsbD_append]
  interval_cases j <;> simp

/-- The operands a format R word is read as, and the codes they stand for. -/
theorem decodeRange_cases {mk : BitVec 7 → Kind → Width → Instr} {w : Word} {i : Instr}
    (h : decodeRange mk w = .ok i) :
    ∃ k wd, i = mk (w.extractLsb' 8 7) k wd ∧ legalKind k wd = true ∧ kindCode k = w.extractLsb' 16 2 ∧
      widthCode wd = w.extractLsb' 18 2 := by
  unfold decodeRange at h
  split at h
  · cases h
  · next k hk =>
    split_ifs at h with hlegal
    exact ⟨k, _, (Except.ok.inj h).symm, hlegal, kindCode_of_kindOf hk, widthCode_widthOf _⟩

theorem wellFormed_of_decodeFields {w : Word} {i : Instr} (h : decodeFields i.opcode w = .ok i) :
    i.wellFormed = true := by
  cases i with
  | getrange | getnext =>
    obtain ⟨k, wd, hi, hlegal, -, -⟩ := decodeRange_cases h
    cases hi
    exact hlegal
  | _ => rfl

/-- The bits that the row of the command's opcode leaves free are its operands, and they are encoded back. -/
theorem encode_operands {w : Word} {i : Instr} {row : Word × Word} (h : decodeFields i.opcode w = .ok i)
    (hrow : tableRow i.opcode = some row) : encode i &&& ~~~row.2 = w &&& ~~~row.2 := by
  cases i with
  | nop | clrerr | crcgen | framechk | layout | cfgclr =>
    cases hrow
    simp
  | alloc | getbit =>
    cases hrow
    cases h
    exact formatI_operand_idx w _
  | setbit =>
    cases hrow
    cases h
    exact formatI_operands w _
  | getrange | getnext =>
    cases hrow
    obtain ⟨k, wd, hi, -, hk, hwd⟩ := decodeRange_cases h
    cases hi
    rw [encode, hk, hwd]
    exact formatR_operands w _
  | setch | setenc =>
    cases hrow
    cases h
    exact formatM_operands w _
  | attach =>
    cases hrow
    cases h
    exact formatA_operands w _
  | setid =>
    cases hrow
    cases h
    exact formatB_operands w _
  | fxch =>
    cases hrow
    cases h
    exact formatF_operand_ch w _
  | fxenc =>
    cases hrow
    cases h
    rw [encode, partCode_partOf]
    exact formatF_operands w _
  | fxper =>
    cases hrow
    cases h
    exact formatP_operands w _

/-- Words that agree on the bits of a mask and on the bits outside it are equal. -/
theorem eq_of_and_eq_of_and_not_eq {n : Nat} {u v m : BitVec n} (hin : u &&& m = v &&& m)
    (hout : u &&& ~~~m = v &&& ~~~m) : u = v := by
  calc u = (u &&& m) ||| (u &&& ~~~m) := by rw [← BitVec.and_or_distrib_left]; simp
    _ = (v &&& m) ||| (v &&& ~~~m) := by rw [hin, hout]
    _ = v := by rw [← BitVec.and_or_distrib_left]; simp

/-- A legal word's fields are those that its command's opcode selects. -/
theorem decodeFields_of_decode {w : Word} {i : Instr} (h : decode w = .ok i) :
    decodeFields i.opcode w = .ok i := by
  unfold decode at h
  split at h
  · cases h
  · split_ifs at h
    rwa [opcode_of_decodeFields h]

/-- Settles O2: the row fixes the bits under its mask, and the operands are the others. -/
theorem encodeOfDecode : Obligations.EncodeOfDecode := by
  intro w i h
  have hfields := decodeFields_of_decode h
  obtain ⟨row, hrow, hword⟩ := tableRow_of_decode h
  obtain ⟨-, row', hrow', hcode⟩ := tableRow_encode i
  obtain rfl := Option.some.inj (hrow.symm.trans hrow')
  exact ⟨eq_of_and_eq_of_and_not_eq (hcode.trans hword.symm) (encode_operands hfields hrow),
    wellFormed_of_decodeFields hfields⟩

/-! ### The illegal words (rule R101) -/

/-- A row fixes the bits of OP at its opcode (rule R99). -/
theorem opcode_of_tableRow {op : BitVec 8} {row : Word × Word} (h : tableRow op = some row) :
    opcodeOf row.1 = op ∧ opcodeOf row.2 = 0xFF#8 := by
  unfold tableRow at h
  split at h
  case h_19 => cases h
  all_goals
    obtain rfl := Option.some.inj h
    exact ⟨BitVec.eq_of_toNat_eq (Eq.symm ‹_›), rfl⟩

/-- A word matches no row but that of its own opcode. -/
theorem opcodeOf_of_matches {op : BitVec 8} {row : Word × Word} (hrow : tableRow op = some row) {w : Word}
    (hw : w &&& row.2 = row.1) : opcodeOf w = op := by
  obtain ⟨hop, hmask⟩ := opcode_of_tableRow hrow
  calc opcodeOf w = opcodeOf w &&& opcodeOf row.2 := by rw [hmask]; exact BitVec.and_allOnes.symm
    _ = opcodeOf (w &&& row.2) := BitVec.extractLsb'_and.symm
    _ = op := by rw [hw, hop]

theorem tableRow_eq_none_iff (op : BitVec 8) : tableRow op = none ↔
    op.toNat = 0x07 ∨ (0x0A ≤ op.toNat ∧ op.toNat ≤ 0x0F) ∨ op.toNat = 0x16 ∨ op.toNat = 0x17 ∨ 0x1B ≤ op.toNat := by
  unfold tableRow
  split
  case h_19 =>
    simp only [imp_false, true_iff] at *
    omega
  all_goals simp only [reduceCtorEq, false_iff]; omega

/-- The pairs of K and WC that rule R101 refuses in a format R word. -/
theorem decodeRange_fails_iff (mk : BitVec 7 → Kind → Width → Instr) (w : Word) :
    (∃ e, decodeRange mk w = .error e) ↔
      w.extractLsb' 16 2 = 3#2 ∨ (w.extractLsb' 16 2 = 2#2 ∧ (w.extractLsb' 18 2).toNat < 2) := by
  unfold decodeRange
  cases hk : kindOf (w.extractLsb' 16 2) with
  | none => simp [(kindOf_eq_none_iff _).1 hk]
  | some k =>
    have hreserved : w.extractLsb' 16 2 ≠ 3#2 := fun h => by simp [(kindOf_eq_none_iff _).2 h] at hk
    rw [← legalKind_eq_false_iff hk]
    cases hlegal : legalKind k (widthOf (w.extractLsb' 18 2)) <;> simp [hlegal, hreserved]

/-- An opcode with a row, but for the two of format R, reads a command from every word. -/
theorem decodeFields_answers {op : BitVec 8} {row : Word × Word} (hrow : tableRow op = some row)
    (hop : ¬(op = 0x05#8 ∨ op = 0x06#8)) (w : Word) : ∃ i, decodeFields op w = .ok i := by
  have hdefined := (tableRow_eq_none_iff op).not.1 (by simp [hrow])
  unfold decodeFields
  split
  case h_6 => exact absurd (.inl (BitVec.eq_of_toNat_eq ‹_›)) hop
  case h_7 => exact absurd (.inr (BitVec.eq_of_toNat_eq ‹_›)) hop
  case h_19 =>
    simp only [imp_false] at *
    omega
  all_goals exact ⟨_, rfl⟩

/-- An opcode with a row refuses a word's fields only in format R. -/
theorem decodeFields_fails_iff {op : BitVec 8} {row : Word × Word} (hrow : tableRow op = some row) (w : Word) :
    (∃ e, decodeFields op w = .error e) ↔ (op = 0x05#8 ∨ op = 0x06#8) ∧
      (w.extractLsb' 16 2 = 3#2 ∨ (w.extractLsb' 16 2 = 2#2 ∧ (w.extractLsb' 18 2).toNat < 2)) := by
  by_cases hop : op = 0x05#8 ∨ op = 0x06#8
  · rw [and_iff_right hop]
    rcases hop with rfl | rfl
    · exact decodeRange_fails_iff .getrange w
    · exact decodeRange_fails_iff .getnext w
  · obtain ⟨i, hi⟩ := decodeFields_answers hrow hop w
    simp [hi, hop]

/-- A word need be compared with the row of its own opcode only. -/
theorem matches_no_row_iff (w : Word) :
    (∀ (op : BitVec 8) (row : Word × Word), tableRow op = some row → w &&& row.2 ≠ row.1) ↔
      ∀ row, tableRow (opcodeOf w) = some row → w &&& row.2 ≠ row.1 := by
  refine ⟨fun h => h (opcodeOf w), fun h op row hrow hw => ?_⟩
  obtain rfl := opcodeOf_of_matches hrow hw
  exact h row hrow hw

theorem illegal_of_matches_no_row {w : Word} (h : ∀ row, tableRow (opcodeOf w) = some row → w &&& row.2 ≠ row.1) :
    Illegal w := by
  unfold Illegal decode
  split
  · exact ⟨_, rfl⟩
  · next row hrow => exact ⟨_, if_neg (h row hrow)⟩

/-- The three grounds of rule R101. -/
theorem illegal_iff (w : Word) : Illegal w ↔
    (∀ (op : BitVec 8) (row : Word × Word), tableRow op = some row → w &&& row.2 ≠ row.1) ∨
      (opcodeOf w = 0x05#8 ∨ opcodeOf w = 0x06#8) ∧
        (w.extractLsb' 16 2 = 3#2 ∨ (w.extractLsb' 16 2 = 2#2 ∧ (w.extractLsb' 18 2).toNat < 2)) := by
  rw [matches_no_row_iff]
  by_cases hnone : ∀ row, tableRow (opcodeOf w) = some row → w &&& row.2 ≠ row.1
  · exact iff_of_true (illegal_of_matches_no_row hnone) (.inl hnone)
  · obtain ⟨row, hrow, hw⟩ : ∃ row, tableRow (opcodeOf w) = some row ∧ w &&& row.2 = row.1 := by
      simpa using hnone
    rw [or_iff_right hnone, ← decodeFields_fails_iff hrow, ← decode_of_matches hrow hw]
    rfl

/-- Settles O3: the grounds, the undefined opcodes, and the run of an illegal word. -/
theorem illegalWordsAreExactlyThese : Obligations.IllegalWordsAreExactlyThese := by
  refine ⟨fun w => ?_, tableRow_eq_none_iff, fun w s rest hw hin => ?_⟩
  · rw [illegal_iff, and_or_left]
  · obtain ⟨e, he⟩ := hw
    rw [step_cmd hin, runCommand_of_error he]
    rfl

/-! ### The pseudo-instructions (rule R105) -/

/-- Byte `k` of a frame goes to buffer byte `j + k`. -/
theorem writeBytesFrom_eq_map (base j : Nat) (bytes : List Byte) :
    writeBytesFrom base j bytes =
      (List.range bytes.length).map fun k => .write (bufAddress base (j + k)) 1 ((bytes.getD k 0#8).setWidth 32) := by
  induction bytes generalizing j with
  | nil => rfl
  | cons b rest ih =>
    rw [writeBytesFrom, ih, List.length_cons, List.range_succ_eq_map]
    simp [Nat.add_assoc, Nat.add_comm 1]

/-- Settles O5: every expansion but that of a frame is its row of rule R105 as it stands. -/
theorem pseudoInstructionsExpand : Obligations.PseudoInstructionsExpand := by
  intro base
  refine ⟨fun _ => rfl, fun _ _ _ _ => rfl, fun _ _ _ _ => rfl, fun _ => rfl, fun bytes _ => ?_, rfl⟩
  rw [expand, writeBytesFrom_eq_map]
  simp [issue, writeReg, regOffset, bufAddress, Config.bufWindow]

end Sys2Proof.Machine

namespace Sys2Proof.Machine

/-! ### The reserved bits of a word (rules R90, R99 and R101) -/

/-- A field reads 0 when each of its bits does. -/
theorem extractLsb'_eq_zero_iff {n : Nat} (w : BitVec n) (start len : Nat) :
    w.extractLsb' start len = 0#len ↔ ∀ j, start ≤ j → j < start + len → w.getLsbD j = false := by
  constructor
  · intro h j hlo hhi
    have hbit := congrArg (fun v => v.getLsbD (j - start)) h
    simpa [BitVec.getLsbD_extractLsb', Nat.add_sub_cancel' hlo, show j - start < len by omega] using hbit
  · intro h
    refine BitVec.eq_of_getLsbD_eq fun j hj => ?_
    simpa [hj] using h (start + j) (by omega) (by omega)

theorem getLsbD_opcodeOf (w : Word) (j : Nat) : (opcodeOf w).getLsbD j = (decide (j < 8) && w.getLsbD j) := by
  simp [opcodeOf, BitVec.getLsbD_extractLsb']

/-- A word is of its opcode's row when the bits above OP that the row's mask holds are 0. -/
theorem and_mask_eq_opcode_iff (w : Word) {mask : Word} (hmask : opcodeOf mask = BitVec.allOnes 8) :
    w &&& mask = (opcodeOf w).setWidth 32 ↔
      ∀ j, 8 ≤ j → j < 32 → mask.getLsbD j = true → w.getLsbD j = false := by
  constructor
  · intro h j hlo hhi hm
    have hj := congrArg (fun v => v.getLsbD j) h
    simpa [getLsbD_opcodeOf, hm, Nat.not_lt.2 hlo] using hj
  · intro h
    refine BitVec.eq_of_getLsbD_eq fun j hj => ?_
    rw [BitVec.getLsbD_and, BitVec.getLsbD_setWidth, getLsbD_opcodeOf, decide_eq_true hj, Bool.true_and]
    by_cases hlo : j < 8
    · have hm := getLsbD_opcodeOf mask j
      simp only [hmask, BitVec.getLsbD_allOnes, hlo, decide_true, Bool.true_and] at hm
      simp only [← hm, hlo, decide_true, Bool.and_true, Bool.true_and]
    · cases hm : mask.getLsbD j with
      | false => simp [hlo]
      | true => simp [hlo, h j (Nat.not_lt.1 hlo) hj hm]

/-- A word that does not match the row of its opcode is illegal. -/
theorem illegal_of_row {w : Word} {row : Word × Word} (hrow : tableRow (opcodeOf w) = some row)
    (hw : w &&& row.2 ≠ row.1) : Illegal w := by
  refine illegal_of_matches_no_row fun row' hrow' => ?_
  obtain rfl := Option.some.inj (hrow.symm.trans hrow')
  exact hw

/-- A word of an opcode with a row encodes the command its fields give, unless a reserved bit is 1. -/
theorem encodes_of_row {w mask : Word} {i : Instr} {legal : Prop}
    (hrow : tableRow (opcodeOf w) = some ((opcodeOf w).setWidth 32, mask))
    (hfields : decodeFields (opcodeOf w) w = .ok i)
    (hlegal : w &&& mask = (opcodeOf w).setWidth 32 ↔ legal) : Encodes w legal i :=
  ⟨fun h => (decode_of_matches hrow (hlegal.2 h)).trans hfields,
    fun h => illegal_of_row hrow fun hw => h (hlegal.1 hw)⟩

/-- In ALLOC and GETBIT bits [15:8] are reserved. -/
theorem and_maskI_v_iff (w : Word) :
    w &&& 0x0000FFFF#32 = (opcodeOf w).setWidth 32 ↔ w.extractLsb' 8 8 = 0#8 := by
  have hreserved : ∀ j < 32, 8 ≤ j → ((0x0000FFFF#32).getLsbD j = true ↔ j < 8 + 8) := by decide
  rw [and_mask_eq_opcode_iff w (by decide), extractLsb'_eq_zero_iff]
  exact ⟨fun h j hlo hhi => h j hlo (by omega) ((hreserved j (by omega) hlo).2 hhi),
    fun h j hlo hhi hm => h j hlo ((hreserved j hhi hlo).1 hm)⟩

/-- In SETBIT bits [15:9] are reserved. -/
theorem and_maskI_iff (w : Word) :
    w &&& 0x0000FEFF#32 = (opcodeOf w).setWidth 32 ↔ w.extractLsb' 9 7 = 0#7 := by
  have hreserved : ∀ j < 32, 8 ≤ j → ((0x0000FEFF#32).getLsbD j = true ↔ 9 ≤ j ∧ j < 9 + 7) := by decide
  rw [and_mask_eq_opcode_iff w (by decide), extractLsb'_eq_zero_iff]
  exact ⟨fun h j hlo hhi => h j (by omega) (by omega) ((hreserved j (by omega) (by omega)).2 ⟨hlo, hhi⟩),
    fun h j hlo hhi hm => ((hreserved j hhi hlo).1 hm).elim (h j)⟩

/-- In format R bit 15 and bits [31:20] are reserved. -/
theorem and_maskR_iff (w : Word) :
    w &&& 0xFFF080FF#32 = (opcodeOf w).setWidth 32 ↔ w.getLsbD 15 = false ∧ w.extractLsb' 20 12 = 0#12 := by
  have hreserved : ∀ j < 32, 8 ≤ j → ((0xFFF080FF#32).getLsbD j = true ↔ j = 15 ∨ 20 ≤ j) := by decide
  rw [and_mask_eq_opcode_iff w (by decide), extractLsb'_eq_zero_iff]
  constructor
  · intro h
    exact ⟨h 15 (by decide) (by decide) (by decide),
      fun j hlo hhi => h j (by omega) hhi ((hreserved j hhi (by omega)).2 (.inr hlo))⟩
  · rintro ⟨h15, htop⟩ j hlo hhi hm
    rcases (hreserved j hhi hlo).1 hm with rfl | hj
    · exact h15
    · exact htop j hj hhi

/-! ### The words of format R (rules R93 and R101) -/

theorem legalKind_iff (k : Kind) (w : Width) : legalKind k w = true ↔ (k = .f → 32 ≤ widthBits w) := by
  cases k <;> cases w <;> decide

theorem widthBits_injective : Function.Injective widthBits := by
  intro v w h
  cases v <;> cases w <;> simp [widthBits] at h ⊢

theorem widthBits_widthOf (wc : BitVec 2) : widthBits (widthOf wc) = 8 * 2 ^ wc.toNat := by
  revert wc
  decide

/-- WC is read as the width it stands for. -/
theorem widthOf_of_widthBits {wd : Width} {wc : BitVec 2} (h : widthBits wd = 8 * 2 ^ wc.toNat) :
    widthOf wc = wd :=
  widthBits_injective ((widthBits_widthOf wc).trans h.symm)

/-- A format R opcode's words: those with a reserved bit at 1, then those decodeRange refuses, are illegal. -/
theorem encodesRange_of_row {w : Word} {mk : BitVec 7 → Kind → Width → Instr}
    (hrow : tableRow (opcodeOf w) = some ((opcodeOf w).setWidth 32, 0xFFF080FF#32))
    (hfields : decodeFields (opcodeOf w) w = decodeRange mk w) : EncodesRange w mk := by
  have hillegal (h : ∃ e, decodeRange mk w = .error e) : Illegal w := by
    by_cases hw : w &&& 0xFFF080FF#32 = (opcodeOf w).setWidth 32
    · rwa [Illegal, decode_of_matches hrow hw, hfields]
    · exact illegal_of_row hrow hw
  refine ⟨fun hk => hillegal ((decodeRange_fails_iff mk w).2 (.inl hk)), fun k wd hk hwd => ?_⟩
  have hkind : kindOf (w.extractLsb' 16 2) = some k := by rw [hk]; exact kindOf_kindCode k
  have hrange : decodeRange mk w =
      if legalKind k wd then .ok (mk (w.extractLsb' 8 7) k wd) else .error .narrowFloat := by
    rw [decodeRange, hkind, widthOf_of_widthBits hwd]
  by_cases hlegal : legalKind k wd = true
  · refine encodes_of_row hrow (by rw [hfields, hrange, if_pos hlegal]) ?_
    rw [and_maskR_iff, and_iff_left ((legalKind_iff k wd).1 hlegal)]
  · exact ⟨fun h => absurd ((legalKind_iff k wd).2 h.2.2) hlegal,
      fun _ => hillegal ⟨.narrowFloat, by rw [hrange, if_neg hlegal]⟩⟩

/-! ### The buffer cleared, and one bit of it (rules R121, R122 and R123) -/

/-- Settles O21: the new memory lists no byte. -/
theorem allocClearsTheBuffer : Obligations.AllocClearsTheBuffer := by
  refine ⟨fun w hop => encodes_of_row (by rw [hop]; rfl) (by rw [hop]; rfl) (and_maskI_v_iff w), fun n s => ?_⟩
  exact ⟨fun hn => if_pos hn, fun hn => ⟨[], if_neg (Nat.not_lt.2 hn), Memory.read_nil⟩⟩

/-- Settles O22. -/
theorem setbitWritesOneBit : Obligations.SetbitWritesOneBit := by
  refine ⟨fun w hop => encodes_of_row (by rw [hop]; rfl) (by rw [hop]; rfl) (and_maskI_iff w), fun i v s => ?_⟩
  refine ⟨fun hi => if_pos hi, fun hi => ⟨Memory.setBit s.mem i.toNat v, if_neg (Nat.not_le.2 hi), ?_, ?_⟩⟩
  · exact fun k => Memory.bit_setBit ..
  · exact fun a ha => Memory.read_setBit_other _ _ _ _ ha

theorem zeroExtend64_toNat (b : Bool) : zeroExtend64 b.toNat = if b then 1#64 else 0#64 := by
  cases b <;> rfl

/-- Settles O23. -/
theorem getbitReadsOneBit : Obligations.GetbitReadsOneBit := by
  refine ⟨fun w hop => encodes_of_row (by rw [hop]; rfl) (by rw [hop]; rfl) (and_maskI_v_iff w), fun i s => ?_⟩
  refine ⟨fun hi => if_pos hi, fun hi => ?_⟩
  rw [← zeroExtend64_toNat]
  exact if_neg (Nat.not_le.2 hi)

/-! ### Bit ranges (rules R120, R124 and R125) -/

theorem widthBits_pos (w : Width) : 0 < widthBits w := by cases w <;> decide

/-- Bit `j` of a zero-extended range. -/
theorem getLsbD_zeroExtend64_raw (m : Memory) (s l : Nat) {j : Nat} (hj : j < 64) :
    (zeroExtend64 (Memory.raw m s l)).getLsbD j = (decide (j < l) && Memory.bit m (s + j)) := by
  rw [zeroExtend64, BitVec.getLsbD_ofNat, Memory.testBit_raw, decide_eq_true hj, Bool.true_and]

/-- Bit `j` of a range sign-extended from bit `w - 1`: a range shorter than `w` bits has a 0 there. -/
theorem getLsbD_signExtend64_raw (m : Memory) (s l : Nat) {w j : Nat} (hw : 0 < w) (hj : j < 64) :
    (signExtend64 (Memory.raw m s l) w).getLsbD j =
      if j < w then decide (j < l) && Memory.bit m (s + j)
      else decide (w ≤ l) && Memory.bit m (s + (w - 1)) := by
  have hbit {b : Nat} (hb : b < w) :
      (BitVec.ofNat w (Memory.raw m s l)).getLsbD b = (decide (b < l) && Memory.bit m (s + b)) := by
    rw [BitVec.getLsbD_ofNat, Memory.testBit_raw, decide_eq_true hb, Bool.true_and]
  rw [signExtend64, BitVec.getLsbD_signExtend, decide_eq_true hj, Bool.true_and]
  split_ifs with hlow
  · exact hbit hlow
  · rw [BitVec.msb_eq_getLsbD_last, hbit (by omega)]
    simp [show w - 1 < l ↔ w ≤ l by omega]

/-- `Extract` bit by bit (rule R120). -/
theorem getLsbD_extract (m : Memory) (s l : Nat) (k : Kind) (w : Width) {j : Nat} (hj : j < 64) :
    (extract m s l k w).getLsbD j = rangeBit m s l k (widthBits w) j := by
  cases k with
  | u | f => exact getLsbD_zeroExtend64_raw m s l hj
  | s => exact getLsbD_signExtend64_raw m s l (widthBits_pos w) hj

theorem rangeCheck_of_badlen (s : State) (start : Nat) {l : Nat} {k : Kind} {w : Width} (hk : legalKind k w = true)
    (hl : widthBits w < l) : rangeCheck s start l k w = some .badlen := by
  simp [rangeCheck, hk, hl]

theorem rangeCheck_of_oob {s : State} {start l : Nat} {k : Kind} {w : Width} (hk : legalKind k w = true)
    (hl : l ≤ widthBits w) (hend : s.bitLength < start + l) : rangeCheck s start l k w = some .oob := by
  simp [rangeCheck, hk, hl, hend]

/-- A command that ends as its settled checks say fails with the error they answer. -/
theorem failsWith_of_settle {i : Instr} {s t : State} {check : Option Code} {e : Code}
    (hexec : exec i s = settle check s t) (hcheck : check = some e) : FailsWith i s e := by
  rw [FailsWith, hexec, hcheck]
  rfl

/-- A command that checks a range and has the effects `t` fails with the range's first error, and has those effects
when the range has none. -/
theorem exec_of_rangeCheck {i : Instr} {s t : State} {start l : Nat} {k : Kind} {w : Width}
    (hexec : exec i s = settle (rangeCheck s start l k w) s t) :
    (legalKind k w = false → FailsWith i s .illegal) ∧
      (legalKind k w = true →
        (widthBits w < l → FailsWith i s .badlen) ∧
        (l ≤ widthBits w → s.bitLength < start + l → FailsWith i s .oob) ∧
        (l ≤ widthBits w → start + l ≤ s.bitLength → exec i s = .next t.withOk)) := by
  refine ⟨fun hk => failsWith_of_settle hexec (if_pos hk), fun hk => ⟨?_, ?_, ?_⟩⟩
  · exact fun hl => failsWith_of_settle hexec (rangeCheck_of_badlen s start hk hl)
  · exact fun hl hend => failsWith_of_settle hexec (rangeCheck_of_oob hk hl hend)
  · intro hl hend
    rw [hexec, (rangeCheck_eq_none ..).2 ⟨hk, hl, hend⟩, settle_none]

/-- Settles O24. -/
theorem getrangeExtractsFromArg0 : Obligations.GetrangeExtractsFromArg0 := by
  refine ⟨fun w hop => encodesRange_of_row (by rw [hop]; rfl) (by rw [hop]; rfl), fun l k w s => ?_⟩
  obtain ⟨hillegal, hlegal⟩ := exec_of_rangeCheck (i := .getrange l k w) (s := s) rfl
  refine ⟨hillegal, fun hk => ?_⟩
  obtain ⟨hbadlen, hoob, hok⟩ := hlegal hk
  exact ⟨hbadlen, hoob, fun hl hend =>
    ⟨extract s.mem s.arg0.toNat l.toNat k w, hok hl hend, fun _ hj => getLsbD_extract _ _ _ _ _ hj⟩⟩

/-- Settles O25: as GETRANGE, and a range that ends in the buffer ends far below 2^32. -/
theorem getnextExtractsFromCursor : Obligations.GetnextExtractsFromCursor := by
  refine ⟨fun w hop => encodesRange_of_row (by rw [hop]; rfl) (by rw [hop]; rfl), fun l k w s => ?_⟩
  obtain ⟨hillegal, hlegal⟩ := exec_of_rangeCheck (i := .getnext l k w) (s := s) rfl
  refine ⟨hillegal, fun hk => ?_⟩
  obtain ⟨hbadlen, hoob, hok⟩ := hlegal hk
  refine ⟨hbadlen, hoob, fun hl hend =>
    ⟨extract s.mem s.cursor.toNat l.toNat k w, BitVec.ofNat 32 (s.cursor.toNat + l.toNat), hok hl hend, ?_,
      fun _ hj => getLsbD_extract _ _ _ _ _ hj⟩⟩
  have hlen := s.len.isLt
  rw [BitVec.toNat_ofNat]
  omega

end Sys2Proof.Machine

namespace Sys2Proof.Machine

/-! ### The payload and the two checksum commands (rules R141 to R143) -/

/-- In format N every bit above OP is reserved. -/
theorem and_maskN_iff (w : Word) : w &&& 0xFFFFFFFF#32 = (opcodeOf w).setWidth 32 ↔ w.extractLsb' 8 24 = 0#24 := by
  have hreserved : ∀ j < 32, (0xFFFFFFFF#32).getLsbD j = true := by decide
  rw [and_mask_eq_opcode_iff w (by decide), extractLsb'_eq_zero_iff]
  exact ⟨fun h j hlo hhi => h j hlo hhi (hreserved j hhi), fun h j hlo hhi _ => h j hlo hhi⟩

theorem State.payload_eq (s : State) :
    s.payload = (List.range (s.len.toNat - 2)).map fun j => Memory.read s.mem j := by
  simp [State.payload, Memory.bytes]

theorem execCrcgen_of_two_le {s : State} (h : 2 ≤ s.len.toNat) : execCrcgen s = .next s.withCrc.withOk :=
  if_neg (Nat.not_lt.2 h)

/-- Settles O26. -/
theorem crcgenComputesTheChecksum : Obligations.CrcgenComputesTheChecksum := by
  refine ⟨fun w hop => encodes_of_row (by rw [hop]; rfl) (by rw [hop]; rfl) (and_maskN_iff w), fun s => ?_⟩
  refine ⟨fun hlen => if_pos hlen, fun hlen => ⟨crc16 s.payload, crc16 s.payload == s.trailer,
    execCrcgen_of_two_le hlen, congrArg crc16 s.payload_eq, beq_iff_eq⟩⟩

theorem not_identityFail {s : State} (hlen : 1 ≤ s.len.toNat) (hident : Memory.read s.mem 0 = s.ident) :
    ¬(s.len.toNat = 0 ∨ Memory.read s.mem 0 ≠ s.ident) :=
  not_or.2 ⟨Nat.ne_of_gt hlen, not_not.2 hident⟩

theorem withCrc_of_checksum {s : State} (h : crc16 s.payload = s.trailer) :
    s.withCrc = { s with crc := crc16 s.payload, crcok := true } := by
  simp [State.withCrc, h]

theorem withCrc_of_checksum_ne {s : State} (h : crc16 s.payload ≠ s.trailer) :
    s.withCrc = { s with crc := crc16 s.payload, crcok := false } := by
  simp [State.withCrc, h]

/-- FRAMECHK of a frame with its identity byte and a trailer goes by the checksum (rule R143). -/
theorem execFramechk_of_identity {s : State} (hlen : 2 ≤ s.len.toNat) (hident : Memory.read s.mem 0 = s.ident) :
    execFramechk s =
      if s.withCrc.crcok then complete { s.withCrc with valid := true, disc := false, fres := .pass }
      else complete { s.withCrc with valid := false, fres := .checksumFail } := by
  rw [execFramechk, if_neg (not_identityFail (by omega) hident), if_neg (Nat.not_lt.2 hlen)]

/-- Settles O27: the checks in order, the identity byte first. -/
theorem framechkGatesTheFrame : Obligations.FramechkGatesTheFrame := by
  refine ⟨fun w hop => encodes_of_row (by rw [hop]; rfl) (by rw [hop]; rfl) (and_maskN_iff w), fun s => ?_⟩
  refine ⟨fun hid => if_pos hid, fun hlen hident => ?_, fun hlen hident c hc => ?_⟩
  · exact (if_neg (not_identityFail hlen.ge hident)).trans (if_pos (by omega))
  · obtain rfl : c = crc16 s.payload := hc.trans (congrArg crc16 s.payload_eq.symm)
    refine ⟨fun hpass => (execFramechk_of_identity hlen hident).trans ?_,
      fun hfail => (execFramechk_of_identity hlen hident).trans ?_⟩
    · rw [withCrc_of_checksum hpass]
      rfl
    · rw [withCrc_of_checksum_ne hfail]
      rfl

/-! ### The shift register, bit by bit (rule R140) -/

theorem crcShift_eq_xor (x : BitVec 16) :
    crcShift x = (x <<< 1) ^^^ (if x.getLsbD 15 then Config.crcPoly else 0#16) := by
  unfold crcShift
  split_ifs <;> simp

theorem getLsbD_crcShift (x : BitVec 16) (j : Nat) :
    (crcShift x).getLsbD j = ((x <<< 1).getLsbD j ^^ (x.getLsbD 15 && Config.crcPoly.getLsbD j)) := by
  rw [crcShift_eq_xor, BitVec.getLsbD_xor]
  cases x.getLsbD 15 <;> simp

/-- A shift is linear over GF(2): the bit that leaves decides alone whether the polynomial is added. -/
theorem crcShift_xor (x y : BitVec 16) : crcShift (x ^^^ y) = crcShift x ^^^ crcShift y := by
  refine BitVec.eq_of_getLsbD_eq fun j _ => ?_
  simp only [getLsbD_crcShift, BitVec.shiftLeft_xor_distrib, BitVec.getLsbD_xor, Bool.and_xor_distrib_right,
    Bool.xor_assoc, Bool.xor_left_comm]

theorem crcShifts_xor (n : Nat) (x y : BitVec 16) : crcShifts n (x ^^^ y) = crcShifts n x ^^^ crcShifts n y := by
  induction n generalizing x y with
  | zero => rfl
  | succ n ih => simp only [crcShifts, crcShift_xor, ih]

theorem crcShifts_add (m n : Nat) (x : BitVec 16) : crcShifts (m + n) x = crcShifts n (crcShifts m x) := by
  induction m generalizing x with
  | zero => rw [Nat.zero_add]; rfl
  | succ m ih => rw [Nat.succ_add]; exact ih (crcShift x)

theorem crcShift_of_msb_false {x : BitVec 16} (h : x.getLsbD 15 = false) : crcShift x = x <<< 1 :=
  if_neg (Bool.not_eq_true _ ▸ h)

/-- While no 1 leaves the register, it only shifts. -/
theorem crcShifts_of_top_clear (n : Nat) {x : BitVec 16} (h : ∀ j, 16 ≤ j + n → x.getLsbD j = false) :
    crcShifts n x = x <<< n := by
  induction n generalizing x with
  | zero => exact (BitVec.shiftLeft_zero x).symm
  | succ n ih =>
    have hshift : crcShift x = x <<< 1 := crcShift_of_msb_false (h 15 (by omega))
    have hclear : ∀ j, 16 ≤ j + n → (x <<< 1).getLsbD j = false := fun j hj => by
      rw [BitVec.getLsbD_shiftLeft]
      by_cases hj0 : j < 1
      · simp [hj0]
      · rw [h (j - 1) (by omega), Bool.and_false]
    rw [crcShifts, hshift, ih hclear, ← BitVec.shiftLeft_add, Nat.add_comm]

theorem crcShifts_zero (n : Nat) : crcShifts n 0#16 = 0#16 := by
  simpa using crcShifts_of_top_clear n (x := 0#16) (by simp)

theorem crcFrom_cons (init : BitVec 16) (b : Byte) (d : List Byte) :
    crcFrom init (b :: d) = crcFrom (crcByte init b) d := rfl

/-! ### Long division (rule R140) -/

/-- A step of the division is a shift of the register and the next bit of the message added at its low end. -/
theorem divideBits_cons (reg : BitVec 16) (b : Bool) (rest : List Bool) :
    divideBits reg (b :: rest) = divideBits (crcShift reg ^^^ (BitVec.ofBool b).setWidth 16) rest := by
  have hor : (reg <<< 1) ||| (BitVec.ofBool b).setWidth 16 = (reg <<< 1) ^^^ (BitVec.ofBool b).setWidth 16 := by
    refine BitVec.eq_of_getLsbD_eq fun j _ => ?_
    cases j <;> simp
  rw [divideBits, hor, crcShift_eq_xor, BitVec.xor_assoc, BitVec.xor_assoc, BitVec.xor_comm (BitVec.setWidth 16 _)]
  rfl

theorem divideBits_append (reg : BitVec 16) (xs ys : List Bool) :
    divideBits reg (xs ++ ys) = divideBits (divideBits reg xs) ys := by
  induction xs generalizing reg with
  | nil => rfl
  | cons b xs ih => exact ih _

/-- The start value and the message contribute to the remainder apart. -/
theorem divideBits_eq_xor (reg : BitVec 16) (bits : List Bool) :
    divideBits reg bits = crcShifts bits.length reg ^^^ divideBits 0#16 bits := by
  induction bits generalizing reg with
  | nil => simp [divideBits, crcShifts]
  | cons b bits ih =>
    have hzero : crcShift 0#16 = 0#16 := rfl
    rw [divideBits_cons, divideBits_cons, ih, ih (crcShift 0#16 ^^^ _), hzero, BitVec.zero_xor, crcShifts_xor,
      BitVec.xor_assoc]
    rfl

theorem divideBits_replicate_false (reg : BitVec 16) (n : Nat) :
    divideBits reg (List.replicate n false) = crcShifts n reg := by
  induction n generalizing reg with
  | zero => rfl
  | succ n ih => rw [List.replicate_succ, divideBits_cons, ih]; simp [crcShifts]

theorem getLsbD_setWidth_byte (b : Byte) (j : Nat) : (b.setWidth 16).getLsbD j = b.getLsbD j := by
  rw [BitVec.getLsbD_setWidth]
  by_cases hj : j < 16
  · rw [decide_eq_true hj, Bool.true_and]
  · rw [BitVec.getLsbD_of_ge b j (by omega), Bool.and_false]

/-- The high bits of a byte stand in the register, and the division takes in the `k` others: no 1 leaves it. -/
theorem divideBits_low_bits (b : Byte) (k : Nat) :
    divideBits (b.setWidth 16 >>> k) ((List.range k).reverse.map b.getLsbD) = b.setWidth 16 := by
  induction k with
  | zero => exact BitVec.ushiftRight_zero _
  | succ k ih =>
    have hmsb : (b.setWidth 16 >>> (k + 1)).getLsbD 15 = false := by
      rw [BitVec.getLsbD_ushiftRight, getLsbD_setWidth_byte, BitVec.getLsbD_of_ge b _ (by omega)]
    have hstep : crcShift (b.setWidth 16 >>> (k + 1)) ^^^ (BitVec.ofBool (b.getLsbD k)).setWidth 16 =
        b.setWidth 16 >>> k := by
      rw [crcShift_of_msb_false hmsb]
      refine BitVec.eq_of_getLsbD_eq fun j hj => ?_
      simp only [BitVec.getLsbD_xor, BitVec.getLsbD_shiftLeft, BitVec.getLsbD_ushiftRight, getLsbD_setWidth_byte]
      cases j with
      | zero => simp
      | succ j => simp [hj, Nat.add_right_comm k 1 j, ← Nat.add_assoc]
    rw [List.range_succ, List.reverse_concat, List.map_cons, divideBits_cons, hstep, ih]

theorem length_byteBits (b : Byte) : (byteBits b).length = 8 := rfl

/-- Eight bits are fewer than the divisor's, so they are their own remainder. -/
theorem divideBits_byteBits (b : Byte) : divideBits 0#16 (byteBits b) = b.setWidth 16 := by
  have hzero : b.setWidth 16 >>> 8 = 0#16 := by
    refine BitVec.eq_of_getLsbD_eq fun j _ => ?_
    rw [BitVec.getLsbD_ushiftRight, getLsbD_setWidth_byte, BitVec.getLsbD_of_ge b _ (by omega), BitVec.getLsbD_zero]
  rw [← hzero]
  exact divideBits_low_bits b 8

/-- Sixteen shifts of the division's register are the CRC's: the division takes a byte in at the low end, and the CRC,
sixteen shifts ahead, at the high end. -/
theorem divideBits_message (reg : BitVec 16) (d : List Byte) :
    divideBits reg (d.flatMap byteBits ++ List.replicate 16 false) = crcFrom (crcShifts 16 reg) d := by
  induction d generalizing reg with
  | nil => exact divideBits_replicate_false reg 16
  | cons b d ih =>
    have hbyte : crcShifts 8 (b.setWidth 16) = b.setWidth 16 <<< 8 :=
      crcShifts_of_top_clear 8 fun j hj => by
        rw [getLsbD_setWidth_byte, BitVec.getLsbD_of_ge b j (by omega)]
    have hstep : crcShifts 16 (divideBits reg (byteBits b)) = crcByte (crcShifts 16 reg) b := calc
      crcShifts 16 (divideBits reg (byteBits b))
        = crcShifts 16 (crcShifts 8 reg ^^^ b.setWidth 16) := by
          rw [divideBits_eq_xor, divideBits_byteBits, length_byteBits]
      _ = crcShifts 8 (crcShifts 16 reg ^^^ (b.setWidth 16 <<< 8)) := by
          rw [crcShifts_add 8 8, crcShifts_xor, hbyte, ← crcShifts_add]
      _ = crcByte (crcShifts 16 reg) b := rfl
    rw [List.flatMap_cons, List.append_assoc, divideBits_append, ih, hstep, crcFrom_cons]

/-- Settles O28: the register starts at 0 on both sides. -/
theorem crcIsTheDivisionRemainder : Obligations.CrcIsTheDivisionRemainder := by
  intro d
  rw [divideBits_message, crcShifts_zero]
  rfl

/-! ### A changed byte changes the checksum (rule R145) -/

/-- The bits of a register that a left shift does not push out can be read back. -/
theorem getLsbD_of_shiftLeft_eq {x y : BitVec 16} {n : Nat} (h : x <<< n = y <<< n) {j : Nat} (hj : j + n < 16) :
    x.getLsbD j = y.getLsbD j := by
  have hbit := congrArg (fun v => v.getLsbD (j + n)) h
  simpa only [BitVec.getLsbD_shiftLeft, hj, Nat.not_lt.2 (Nat.le_add_left n j), Nat.add_sub_cancel, decide_true,
    decide_false, Bool.not_false, Bool.true_and] using hbit

/-- The polynomial's bit 0 is 1, so bit 0 after a shift says which bit left. -/
theorem crcShift_injective : Function.Injective crcShift := by
  intro x y h
  have hmsb : x.getLsbD 15 = y.getLsbD 15 := by
    have hlow (z : BitVec 16) : (crcShift z).getLsbD 0 = z.getLsbD 15 := by
      have hpoly : Config.crcPoly.getLsbD 0 = true := rfl
      rw [getLsbD_crcShift, BitVec.getLsbD_shiftLeft, hpoly]
      simp
    rw [← hlow x, ← hlow y, h]
  have hshift : x <<< 1 = y <<< 1 := by
    rw [crcShift_eq_xor, crcShift_eq_xor, hmsb] at h
    exact (BitVec.xor_left_inj _).1 h
  refine BitVec.eq_of_getLsbD_eq fun j hj => ?_
  by_cases hj15 : j = 15
  · rwa [hj15]
  · exact getLsbD_of_shiftLeft_eq hshift (by omega)

theorem crcShifts_injective (n : Nat) : Function.Injective (crcShifts n) := by
  induction n with
  | zero => exact Function.injective_id
  | succ n ih => exact ih.comp crcShift_injective

theorem crcByte_left_injective (d : Byte) : Function.Injective fun crc => crcByte crc d :=
  fun _ _ h => BitVec.xor_left_inj _ |>.1 (crcShifts_injective 8 h)

theorem crcByte_injective (crc : BitVec 16) : Function.Injective (crcByte crc) := by
  intro d e h
  have hshift : d.setWidth 16 <<< 8 = e.setWidth 16 <<< 8 := BitVec.xor_right_inj _ |>.1 (crcShifts_injective 8 h)
  refine BitVec.eq_of_getLsbD_eq fun j hj => ?_
  simpa [show j < 16 by omega] using getLsbD_of_shiftLeft_eq hshift (j := j) (by omega)

theorem crcFrom_injective (d : List Byte) : Function.Injective fun init => crcFrom init d := by
  induction d with
  | nil => exact Function.injective_id
  | cons b d ih => exact ih.comp (crcByte_left_injective b)

/-- A byte string with one byte changed has another checksum. -/
theorem crcFrom_set_ne (init : BitVec 16) {d : List Byte} {k : Nat} (hk : k < d.length) {b : Byte} (hb : b ≠ d[k]) :
    crcFrom init (d.set k b) ≠ crcFrom init d := by
  induction d generalizing init k with
  | nil => exact absurd hk (Nat.not_lt_zero k)
  | cons a d ih =>
    cases k with
    | zero => exact fun h => hb (crcByte_injective init (crcFrom_injective d h))
    | succ k => exact ih _ (Nat.lt_of_succ_lt_succ hk) hb

theorem Memory.length_bytes (m : Memory) (a n : Nat) : (Memory.bytes m a n).length = n := by
  simp [Memory.bytes]

theorem Memory.getElem_bytes (m : Memory) (a n k : Nat) (hk : k < (Memory.bytes m a n).length) :
    (Memory.bytes m a n)[k] = Memory.read m (a + k) := by
  simp [Memory.bytes]

/-- The first `n` bytes after a write. -/
theorem Memory.bytes_write (m : Memory) (n k : Nat) (b : Byte) :
    Memory.bytes (Memory.write m k b) 0 n = (Memory.bytes m 0 n).set k b := by
  refine List.ext_getElem (by simp [Memory.length_bytes]) fun j _ _ => ?_
  rw [Memory.getElem_bytes, List.getElem_set, Memory.getElem_bytes, Nat.zero_add, Memory.read_write]
  exact if_congr eq_comm rfl rfl

theorem State.length_payload (s : State) : s.payload.length = s.len.toNat - 2 := Memory.length_bytes ..

theorem State.getElem_payload (s : State) {j : Nat} (hj : j < s.payload.length) :
    s.payload[j] = Memory.read s.mem j :=
  (Memory.getElem_bytes ..).trans (by rw [Nat.zero_add])

theorem State.payload_of_write {s u : State} {k : Nat} {b : Byte} (hlen : u.len = s.len)
    (hmem : u.mem = Memory.write s.mem k b) : u.payload = s.payload.set k b := by
  rw [State.payload, hmem, hlen, Memory.bytes_write]
  rfl

/-- A byte of the payload is no byte of the trailer. -/
theorem State.trailer_of_write {s u : State} {k : Nat} {b : Byte} (hlen : u.len = s.len)
    (hk : k < s.len.toNat - 2) (hmem : u.mem = Memory.write s.mem k b) : u.trailer = s.trailer := by
  rw [State.trailer, hmem, hlen, Memory.read_write_other _ _ _ _ (by omega),
    Memory.read_write_other _ _ _ _ (by omega)]
  rfl

/-- Equal trailers hold equal bytes. -/
theorem State.read_of_trailer_eq {s u : State} (hlen : u.len = s.len) (h : u.trailer = s.trailer) {k : Nat}
    (hk : k = s.len.toNat - 2 ∨ k = s.len.toNat - 1) : Memory.read u.mem k = Memory.read s.mem k := by
  rw [State.trailer, State.trailer, hlen] at h
  rcases hk with rfl | rfl
  · simpa only [BitVec.extractLsb'_append_eq_left] using congrArg (BitVec.extractLsb' 8 8) h
  · simpa only [BitVec.extractLsb'_append_eq_right] using congrArg (BitVec.extractLsb' 0 8) h

/-- One byte of a frame that carries its checksum is changed: a byte of the payload changes the checksum and leaves the
trailer, and a byte of the trailer the other way round. -/
theorem checksum_ne_of_write {s u : State} {k : Nat} {b : Byte} (hlen : u.len = s.len) (hk : k < s.len.toNat)
    (hmem : u.mem = Memory.write s.mem k b) (hb : b ≠ Memory.read s.mem k) (hs : crc16 s.payload = s.trailer) :
    crc16 u.payload ≠ u.trailer := by
  rw [State.payload_of_write hlen hmem]
  by_cases hin : k < s.len.toNat - 2
  · have hk' : k < s.payload.length := by rwa [State.length_payload]
    rw [State.trailer_of_write hlen hin hmem, ← hs]
    exact crcFrom_set_ne _ hk' (by rwa [s.getElem_payload])
  · have hread : Memory.read u.mem k = b := by rw [hmem, Memory.read_write_same]
    rw [List.set_eq_of_length_le (by rw [State.length_payload]; omega), hs]
    exact fun h => hb (hread.symm.trans (State.read_of_trailer_eq hlen h.symm (by omega)))

theorem putBit_not_ne (b : Byte) {k : Nat} (hk : k < 8) : putBit b k (!b.getLsbD k) ≠ b := by
  intro h
  have hbit := getLsbD_putBit b k k (!b.getLsbD k) hk hk
  rw [h, if_pos rfl] at hbit
  exact Bool.not_ne_self _ hbit.symm

theorem execSetbit_of_lt {i : BitVec 16} {s : State} (hi : i.toNat < s.bitLength) (v : Bool) :
    execSetbit i v s = .next (State.withOk { s with mem := Memory.setBit s.mem i.toNat v, valid := false }) :=
  if_neg (Nat.not_le.2 hi)

/-- A buffer that holds `p` and then its checksum, high byte first, carries its payload's checksum. -/
theorem checksum_of_contents {s : State} {p : List Byte} (hlen : s.len.toNat = p.length + 2)
    (hp : ∀ j, j < p.length → Memory.read s.mem j = p.getD j 0#8)
    (hhi : Memory.read s.mem p.length = (crc16 p).extractLsb' 8 8)
    (hlo : Memory.read s.mem (p.length + 1) = (crc16 p).extractLsb' 0 8) : crc16 s.payload = s.trailer := by
  have hpayload : s.payload = p := by
    refine List.ext_getElem (by rw [State.length_payload, hlen, Nat.add_sub_cancel]) fun j _ hj => ?_
    rw [s.getElem_payload, hp j hj, List.getElem_eq_getD 0#8]
  rw [hpayload, State.trailer, hlen, Nat.add_sub_cancel, hhi, Nat.add_sub_assoc (by decide), hlo]
  have hhalves : (crc16 p).extractLsb' 8 8 ++ (crc16 p).extractLsb' 0 8 = crc16 p :=
    (BitVec.extractLsb'_append_extractLsb'_eq_extractLsb' rfl).trans BitVec.extractLsb'_eq_self
  exact hhalves.symm

/-- Settles O29: the flipped bit changes one byte of the frame. -/
theorem checksumRoundTripAndSingleBitDetection : Obligations.ChecksumRoundTripAndSingleBitDetection := by
  refine ⟨fun s p hlen hp hhi hlo => ?_, fun s t i hexec hok hcrcok hi => ?_⟩
  · exact ⟨_, execCrcgen_of_two_le (by omega), rfl, beq_iff_eq.2 (checksum_of_contents hlen hp hhi hlo)⟩
  · rcases execCrcgen_cases _ _ hexec with ⟨-, rfl⟩ | ⟨htwo, rfl⟩
    · cases hok
    · refine ⟨_, _, execSetbit_of_lt (s := s.withCrc.withOk) hi _, execCrcgen_of_two_le htwo, rfl, rfl, ?_⟩
      have hflip := putBit_not_ne (Memory.read s.mem (i.toNat / 8)) (Nat.mod_lt i.toNat (by decide : 0 < 8))
      exact beq_eq_false_iff_ne.2 <|
        checksum_ne_of_write (s := s) rfl (Nat.div_lt_of_lt_mul hi) rfl hflip (beq_iff_eq.1 hcrcok)

/-! ### Field commands without a validated frame (rules R144 and R190) -/

theorem execFxch_of_no_channel {c : BitVec 4} (hc : channelOf c = none) (s : State) :
    execFxch c s = raise .range s := by
  rw [execFxch, hc]

theorem execFxch_of_channelOf {c : BitVec 4} {k : Fin 12} (hc : channelOf c = some k) (s : State) :
    execFxch c s = settle (fieldCheck s (s.chmode[k] != .off) (s.chStart c.toNat + chWidth s.chmode[k])) s
      { s with
        result := zeroExtend64 (Memory.raw s.mem (s.chStart c.toNat) (chWidth s.chmode[k]))
        cursor := BitVec.ofNat 32 (s.chStart c.toNat + chWidth s.chmode[k]) } := by
  rw [execFxch, hc]

theorem execFxenc_of_no_encoder {e : BitVec 4} (he : encoderOf e = none) (p : EncPart) (s : State) :
    execFxenc e p s = raise .range s := by
  rw [execFxenc, he]

theorem execFxenc_of_encoderOf {e : BitVec 4} {k : Fin 6} (he : encoderOf e = some k) (p : EncPart) (s : State) :
    execFxenc e p s =
      settle (fieldCheck s (s.encmode[k] != .off) (s.encStart e.toNat + (encPart p).1 + (encPart p).2)) s
        { s with
          result := signExtend64 (Memory.raw s.mem (s.encStart e.toNat + (encPart p).1) (encPart p).2) (encPart p).2
          cursor := BitVec.ofNat 32 (s.encStart e.toNat + (encPart p).1 + (encPart p).2) } := by
  rw [execFxenc, he]

theorem execFxper_of_no_bus {b : BitVec 2} (hb : busOf b = none) (slot : BitVec 4) (s : State) :
    execFxper b slot s = raise .range s := by
  rw [execFxper, hb]

theorem execFxper_of_no_slot {b : BitVec 2} {slot : BitVec 4} {s : State} {k : Fin 3} (hb : busOf b = some k)
    (hp : s.ptab[k][slot.toNat]? = none) : execFxper b slot s = raise .notcfg s := by
  simp only [execFxper, hb, hp]

theorem execFxper_of_slot {b : BitVec 2} {slot : BitVec 4} {s : State} {k : Fin 3} {p : Peripheral}
    (hb : busOf b = some k) (hp : s.ptab[k][slot.toNat]? = some p) :
    execFxper b slot s = settle (fieldCheck s true (s.pStart k slot.toNat + p.rlen.toNat)) s
      { s with
        result := fxperResult (Memory.bit s.mem (s.pStart k slot.toNat)) p.rlen (s.pStart k slot.toNat)
        cursor := BitVec.ofNat 32 (s.pStart k slot.toNat) } := by
  simp only [execFxper, hb, hp]

/-- The check of VALID comes before that of the field's end, so OOB is no outcome without a validated frame. -/
theorem fieldCheck_of_invalid {s : State} (hv : s.valid = false) (configured : Bool) (stop : Nat) :
    fieldCheck s configured stop = some .notcfg ∨ fieldCheck s configured stop = some .noframe := by
  unfold fieldCheck
  split_ifs
  · exact .inl rfl
  · exact .inl rfl
  · exact .inr rfl

/-- A command that ends as the checks of a field say fails without a validated frame. -/
theorem failsWith_of_fieldCheck {i : Instr} {s t : State} {configured : Bool} {stop : Nat} (hv : s.valid = false)
    (hexec : exec i s = settle (fieldCheck s configured stop) s t) : FailsWith i s .notcfg ∨ FailsWith i s .noframe :=
  (fieldCheck_of_invalid hv configured stop).imp (failsWith_of_settle hexec) (failsWith_of_settle hexec)

/-- Settles O44: an item that the machine does not have fails before the checks of its field, any other by them. -/
theorem fieldCommandsNeedAValidFrame : Obligations.FieldCommandsNeedAValidFrame := by
  intro i s hi hv
  cases i with
  | fxch c =>
    cases hc : channelOf c with
    | none => exact .inl (execFxch_of_no_channel hc s)
    | some k => exact .inr (failsWith_of_fieldCheck hv (execFxch_of_channelOf hc s))
  | fxenc e p =>
    cases he : encoderOf e with
    | none => exact .inl (execFxenc_of_no_encoder he p s)
    | some k => exact .inr (failsWith_of_fieldCheck hv (execFxenc_of_encoderOf he p s))
  | fxper b slot =>
    cases hb : busOf b with
    | none => exact .inl (execFxper_of_no_bus hb slot s)
    | some k =>
      cases hp : s.ptab[k][slot.toNat]? with
      | none => exact .inr (.inl (execFxper_of_no_slot hb hp))
      | some p => exact .inr (failsWith_of_fieldCheck hv (execFxper_of_slot hb hp))
  | _ => cases hi

end Sys2Proof.Machine

namespace Sys2Proof.Machine

/-! ### The words whose high bits are reserved (rules R94 to R98 and R101) -/

/-- Where the bits above OP that a row's mask holds are those from `start` up, a word is of that row when they
are 0. -/
theorem and_highMask_iff (w : Word) {mask : Word} {start len : Nat} (hop : opcodeOf mask = BitVec.allOnes 8)
    (hstart : 8 ≤ start) (hend : start + len = 32)
    (hmask : ∀ j < 32, 8 ≤ j → (mask.getLsbD j = true ↔ start ≤ j)) :
    w &&& mask = (opcodeOf w).setWidth 32 ↔ w.extractLsb' start len = 0#len := by
  rw [and_mask_eq_opcode_iff w hop, extractLsb'_eq_zero_iff, hend]
  exact ⟨fun h j hlo hhi => h j (hstart.trans hlo) hhi ((hmask j hhi (hstart.trans hlo)).2 hlo),
    fun h j hlo hhi hm => h j ((hmask j hhi hlo).1 hm) hhi⟩

/-- In formats M and P bits [31:14] are reserved. -/
theorem and_maskM_iff (w : Word) : w &&& 0xFFFFC0FF#32 = (opcodeOf w).setWidth 32 ↔ w.extractLsb' 14 18 = 0#18 :=
  and_highMask_iff w (by decide) (by decide) rfl (by decide)

/-- In format A bits [31:21] are reserved. -/
theorem and_maskA_iff (w : Word) : w &&& 0xFFE000FF#32 = (opcodeOf w).setWidth 32 ↔ w.extractLsb' 21 11 = 0#11 :=
  and_highMask_iff w (by decide) (by decide) rfl (by decide)

/-- In format B bits [31:16] are reserved. -/
theorem and_maskB_iff (w : Word) : w &&& 0xFFFF00FF#32 = (opcodeOf w).setWidth 32 ↔ w.extractLsb' 16 16 = 0#16 :=
  and_highMask_iff w (by decide) (by decide) rfl (by decide)

/-! ### SETCH and SETENC (rules R102, R162 and R163) -/

/-- An entry read after a write to the same or to another entry. -/
theorem getElem_vector_set {α : Type} {n : Nat} (v : Vector α n) (i k : Fin n) (x : α) :
    (v.set i x)[k] = if k = i then x else v[k] := by
  simp only [Fin.getElem_fin, Vector.getElem_set, Fin.ext_iff, eq_comm]

/-- Writing the entry of item `x`, counted from 1, leaves the other items' entries. -/
theorem getElem_set_numbered {α : Type} {n x : Nat} {i : Fin n} (hx : x = i.val + 1) (v : Vector α n) (y : α) :
    (∀ k : Fin n, k.val + 1 ≠ x → (v.set i y)[k] = v[k]) ∧
      ∀ k : Fin n, k.val + 1 = x → (v.set i y)[k] = y := by
  refine ⟨fun k hk => ?_, fun k hk => ?_⟩
  · rw [getElem_vector_set, if_neg fun h : k = i => hk (h ▸ hx.symm)]
  · rw [getElem_vector_set, if_pos (Fin.ext (by omega))]

/-- The common meaning of SETCH and SETENC: LOCKED, RANGE and BADVAL in order, then the effect of the item and its
mode. -/
def setMode {n : Nat} {α : Type} (item : Option (Fin n)) (mode : Option α) (effect : Fin n → α → State)
    (s : State) : Result :=
  if s.lock then raise .locked s
  else
    match item with
    | none => raise .range s
    | some k =>
      match mode with
      | none => raise .badval s
      | some x => complete (effect k x)

theorem execSetch_eq_setMode (c : BitVec 4) (m : BitVec 2) (s : State) : execSetch c m s =
    setMode (channelOf c) (chModeOf m) (fun k mode => { s with chmode := s.chmode.set k mode }) s := by
  unfold execSetch setMode
  cases channelOf c with
  | none => rfl
  | some k => cases chModeOf m <;> rfl

theorem execSetenc_eq_setMode (e : BitVec 4) (m : BitVec 2) (s : State) : execSetenc e m s =
    setMode (encoderOf e) (encModeOf m) (fun k mode => { s with encmode := s.encmode.set k mode }) s := by
  unfold execSetenc setMode
  cases encoderOf e with
  | none => rfl
  | some k => cases encModeOf m <;> rfl

/-- A command that sets the mode of item `x` checks the lock, the number and the mode in this order. -/
theorem exec_of_setMode {i : Instr} {s : State} {n x : Nat} {α : Type} {mode : Option α}
    {effect : Fin n → α → State} (hexec : exec i s = setMode (numbered n x) mode effect s) :
    (s.lock = true → FailsWith i s .locked) ∧
      (s.lock = false → x < 1 ∨ n < x → FailsWith i s .range) ∧
      (s.lock = false → 1 ≤ x → x ≤ n → mode = none → FailsWith i s .badval) ∧
      (s.lock = false → 1 ≤ x → x ≤ n → ∀ y, mode = some y →
        ∃ k : Fin n, x = k.val + 1 ∧ exec i s = .next (effect k y).withOk) := by
  have hitem (hlo : 1 ≤ x) (hhi : x ≤ n) : ∃ k, numbered n x = some k :=
    Option.ne_none_iff_exists'.1 fun hnone => by have := (numbered_eq_none n x).1 hnone; omega
  refine ⟨fun hlock => hexec.trans (if_pos hlock), fun hlock hx => ?_,
    fun hlock hlo hhi hmode => ?_, fun hlock hlo hhi y hmode => ?_⟩
  · rw [FailsWith, hexec, (numbered_eq_none n x).2 hx]
    simp [setMode, hlock, State.withError]
  · obtain ⟨k, hk⟩ := hitem hlo hhi
    rw [FailsWith, hexec, hk, hmode]
    simp [setMode, hlock, State.withError]
  · obtain ⟨k, hk⟩ := hitem hlo hhi
    refine ⟨k, (numbered_eq_some n x k).1 hk, hexec.trans ?_⟩
    simp [setMode, hlock, hk, hmode]

/-- The mode codes are 0, 1 and 2 (rule R39). -/
theorem chModeOf_eq_some_iff (m : BitVec 2) (mode : ChMode) : chModeOf m = some mode ↔ chModeCode mode = m := by
  revert m
  cases mode <;> decide

theorem encModeOf_eq_some_iff (m : BitVec 2) (mode : EncMode) : encModeOf m = some mode ↔ encModeCode mode = m := by
  revert m
  cases mode <;> decide

/-- Mode code 3 is reserved (rule R39). -/
theorem chModeOf_eq_none_iff (m : BitVec 2) : chModeOf m = none ↔ m = 3#2 := by
  revert m
  decide

theorem encModeOf_eq_none_iff (m : BitVec 2) : encModeOf m = none ↔ m = 3#2 := by
  revert m
  decide

/-- Settles O33. -/
theorem setchSetsOneMode : Obligations.SetchSetsOneMode := by
  refine ⟨fun w hop => encodes_of_row (by rw [hop]; rfl) (by rw [hop]; rfl) (and_maskM_iff w), fun c m s => ?_⟩
  obtain ⟨hlocked, hrange, hbadval, hok⟩ :=
    exec_of_setMode (i := .setch c m) (n := 12) (x := c.toNat) (execSetch_eq_setMode c m s)
  refine ⟨hlocked, hrange, fun hlock hlo hhi hm => hbadval hlock hlo hhi ((chModeOf_eq_none_iff m).2 hm),
    fun hlock hlo hhi hm => ?_⟩
  obtain ⟨mode, hmode⟩ := Option.ne_none_iff_exists'.1 ((chModeOf_eq_none_iff m).not.2 hm)
  obtain ⟨i, hi, hexec⟩ := hok hlock hlo hhi mode hmode
  obtain ⟨hother, hsame⟩ := getElem_set_numbered hi s.chmode mode
  refine ⟨s.chmode.set i mode, hexec, hother, fun k hk => ?_⟩
  rw [hsame k hk]
  obtain rfl := (chModeOf_eq_some_iff m mode).1 hmode
  cases mode <;> decide

/-- Settles O34. -/
theorem setencSetsOneMode : Obligations.SetencSetsOneMode := by
  refine ⟨fun w hop => encodes_of_row (by rw [hop]; rfl) (by rw [hop]; rfl) (and_maskM_iff w), fun e m s => ?_⟩
  obtain ⟨hlocked, hrange, hbadval, hok⟩ :=
    exec_of_setMode (i := .setenc e m) (n := 6) (x := e.toNat) (execSetenc_eq_setMode e m s)
  refine ⟨hlocked, hrange, fun hlock hlo hhi hm => hbadval hlock hlo hhi ((encModeOf_eq_none_iff m).2 hm),
    fun hlock hlo hhi hm => ?_⟩
  obtain ⟨mode, hmode⟩ := Option.ne_none_iff_exists'.1 ((encModeOf_eq_none_iff m).not.2 hm)
  obtain ⟨i, hi, hexec⟩ := hok hlock hlo hhi mode hmode
  obtain ⟨hother, hsame⟩ := getElem_set_numbered hi s.encmode mode
  refine ⟨s.encmode.set i mode, hexec, hother, fun k hk => ?_⟩
  rw [hsame k hk]
  obtain rfl := (encModeOf_eq_some_iff m mode).1 hmode
  cases mode <;> decide

/-! ### ATTACH (rule R164) -/

theorem attach_locked {s : State} (hlock : s.lock = true) (b : BitVec 2) (ty : BitVec 4) (a : BitVec 7) :
    FailsWith (.attach b ty a) s .locked :=
  if_pos hlock

theorem execAttach_of_no_bus {s : State} (hlock : s.lock = false) {b : BitVec 2} (hb : busOf b = none)
    (t : BitVec 4) (a : BitVec 7) : execAttach b t a s = .next (s.withError .range) := by
  simp [execAttach, hlock, hb]

theorem execAttach_of_check {s : State} (hlock : s.lock = false) {b : BitVec 2} {k : Fin 3} (hb : busOf b = some k)
    {t : BitVec 4} {a : BitVec 7} (hcheck : attachCheck s k t a = none) :
    execAttach b t a s = .next
      (State.withOk { s with ptab := s.ptab.set k (s.ptab[k] ++ [Peripheral.mk t a (s.arg0.setWidth 16)]) }) := by
  simp [execAttach, hlock, hb, hcheck]

theorem attachCheck_badval {s : State} (h : s.arg0.toNat = 0 ∨ 0xFFFF < s.arg0.toNat) (b : Fin 3) (t : BitVec 4)
    (a : BitVec 7) : attachCheck s b t a = some .badval :=
  if_pos h

theorem attachCheck_dupaddr {s : State} {b : Fin 3} {t : BitVec 4} {a : BitVec 7} (hpos : 0 < s.arg0.toNat)
    (hmax : s.arg0.toNat ≤ 0xFFFF) (ht : ∀ p ∈ s.ptab[b], p.type ≠ t) (ha : ∃ p ∈ s.ptab[b], p.addr = a) :
    attachCheck s b t a = some .dupaddr := by
  rw [attachCheck, if_neg (by omega), if_neg (by simpa using ht), if_pos (by simpa using ha)]

/-- Settles O35: ARG0 is at most 0xFFFF, so RLEN holds all of it. -/
theorem attachAppendsADescriptor : Obligations.AttachAppendsADescriptor := by
  refine ⟨fun w hop => encodes_of_row (by rw [hop]; rfl) (by rw [hop]; rfl) (and_maskA_iff w), fun b t a s => ?_⟩
  refine ⟨fun hlock => attach_locked hlock b t a, fun hlock hb => execAttach_of_no_bus hlock (hb ▸ rfl) t a,
    fun k hlock hb => ?_⟩
  have hbus : busOf b = some k := (numbered_eq_some ..).2 hb
  refine ⟨fun harg => execAttach_of_busOf hbus t a hlock (attachCheck_badval harg k t a),
    fun hpos hmax => ⟨?_, ?_, ?_⟩⟩
  · exact fun ht => execAttach_of_busOf hbus t a hlock (attachCheck_duptype a hpos hmax (by simpa using ht))
  · exact fun ht ha => execAttach_of_busOf hbus t a hlock (attachCheck_dupaddr hpos hmax ht ha)
  · intro ht ha
    have hcheck := (attachCheck_eq_none s k t a).2 ⟨⟨hpos.ne', hmax⟩, ht, ha⟩
    refine ⟨_, _, execAttach_of_check hlock hbus hcheck, ?_, fun k' => getElem_vector_set ..⟩
    rw [BitVec.toNat_setWidth]
    omega

/-! ### SETID, LAYOUT and CFGCLR (rules R165, R166 and R167) -/

/-- Settles O37. -/
theorem setidProgramsTheIdentity : Obligations.SetidProgramsTheIdentity :=
  ⟨fun w hop => encodes_of_row (by rw [hop]; rfl) (by rw [hop]; rfl) (and_maskB_iff w), fun _ _ => rfl⟩

/-- Settles O38: the 7 bits of TLEN hold a length of at most 100. -/
theorem layoutLocksTheConfiguration : Obligations.LayoutLocksTheConfiguration := by
  refine ⟨fun w hop => encodes_of_row (by rw [hop]; rfl) (by rw [hop]; rfl) (and_maskN_iff w), fun s => ?_⟩
  refine ⟨fun h => if_pos h, fun h => ⟨BitVec.ofNat 7 s.layoutTlen, ?_, if_neg (Nat.not_lt.2 h)⟩⟩
  rw [BitVec.toNat_ofNat]
  omega

/-- Settles O39. -/
theorem cfgclrEmptiesTheConfiguration : Obligations.CfgclrEmptiesTheConfiguration := by
  refine ⟨fun w hop => encodes_of_row (by rw [hop]; rfl) (by rw [hop]; rfl) (and_maskN_iff w), fun s => ?_⟩
  exact ⟨_, _, _, rfl, fun _ => Vector.getElem_replicate .., fun _ => Vector.getElem_replicate ..,
    fun _ => Vector.getElem_replicate ..⟩

/-! ### The layout functions (rules R160 and R161) -/

section
variable {α : Type} {n : Nat}

/-- A start is a sum over the items before, so the next start is one item further. -/
theorem sum_map_take_succ (v : Vector α n) (f : α → Nat) (k : Fin n) :
    ((v.toList.take (k.val + 1)).map f).sum = ((v.toList.take k.val).map f).sum + f v[k] := by
  simp [List.take_add_one, k.isLt]

theorem sum_map_take_le (l : List α) (f : α → Nat) (k : Nat) : ((l.take k).map f).sum ≤ (l.map f).sum :=
  ((List.take_sublist k l).map f).sum_le_sum fun _ _ => Nat.zero_le _

theorem sum_map_of_forall_eq {v : Vector α n} {f : α → Nat} {x : Nat} (h : ∀ k : Fin n, f v[k] = x) :
    (v.toList.map f).sum = n * x := by
  have hall : ∀ y ∈ v.toList.map f, y = x := by
    intro y hy
    obtain ⟨a, ha, rfl⟩ := List.mem_map.1 hy
    obtain ⟨i, hi, rfl⟩ := List.getElem_of_mem ha
    exact h ⟨i, by simpa using hi⟩
  simpa using List.sum_eq_card_nsmul _ _ hall

end

/-- The bits of the channel fields. -/
def Block.chBits (s : Block) : Nat := (s.chmode.toList.map chWidth).sum

/-- The bits of the encoder fields. -/
def Block.encBits (s : Block) : Nat := (s.encmode.toList.map encWidth).sum

/-- The bits of the replies of all buses. -/
def Block.busBits (s : Block) : Nat := (s.ptab.toList.map replyBits).sum

section
variable (s : Block)

theorem chStart_one : s.chStart 1 = 8 := by simp [Block.chStart]

theorem chStart_succ (c : Fin 12) : s.chStart (c.val + 2) = s.chStart (c.val + 1) + chWidth s.chmode[c] := by
  simp only [Block.chStart, Nat.add_sub_cancel, Nat.add_succ_sub_one, sum_map_take_succ, Nat.add_assoc]

theorem chStart_end : s.chStart 13 = 8 + s.chBits := by
  rw [Block.chStart, Block.chBits, List.take_of_length_le (by simp)]

theorem encStart_one : s.encStart 1 = s.chStart 13 := by simp [Block.encStart]

theorem encStart_succ (e : Fin 6) : s.encStart (e.val + 2) = s.encStart (e.val + 1) + encWidth s.encmode[e] := by
  simp only [Block.encStart, Nat.add_sub_cancel, Nat.add_succ_sub_one, sum_map_take_succ, Nat.add_assoc]

theorem encStart_end : s.encStart 7 = 8 + s.chBits + s.encBits := by
  rw [Block.encStart, chStart_end, Block.encBits, List.take_of_length_le (by simp)]

/-- A bus starts behind the buses before it. -/
theorem pStart_zero (b : Fin 3) :
    s.pStart b 0 = s.encStart 7 + ((s.ptab.toList.take b.val).map replyBits).sum := by
  simp [Block.pStart, replyBits]

theorem pStart_succ {b : Fin 3} {slot : Nat} {p : Peripheral} (hp : s.ptab[b][slot]? = some p) :
    s.pStart b (slot + 1) = s.pStart b slot + p.rlen.toNat := by
  rw [Block.pStart, List.take_add_one, hp]
  simp [Block.pStart, replyBits, Nat.add_assoc]

/-- A bus ends behind itself and the buses before it. -/
theorem pStart_length (b : Fin 3) : s.pStart b s.ptab[b].length =
    s.encStart 7 + ((s.ptab.toList.take (b.val + 1)).map replyBits).sum := by
  rw [Block.pStart, List.take_length, sum_map_take_succ, Nat.add_assoc]

theorem payloadBits_eq : s.payloadBits = 8 + s.chBits + s.encBits + s.busBits := by
  rw [Block.payloadBits, pStart_length, encStart_end, Block.busBits, List.take_of_length_le (by simp)]

end

/-- Settles O31. -/
theorem layoutFieldsAreContiguous : Obligations.LayoutFieldsAreContiguous := by
  intro s
  refine ⟨chStart_one s.toBlock, fun c => ?_, encStart_one s.toBlock, fun e => ?_, pStart_zero s.toBlock 0,
    fun b slot p hp => pStart_succ s.toBlock hp, ?_, ?_, rfl⟩
  · rw [chStart_succ]
    cases s.chmode[c] <;> rfl
  · rw [encStart_succ]
    cases s.encmode[e] <;> rfl
  · exact (pStart_zero s.toBlock 1).trans (pStart_length s.toBlock 0).symm
  · exact (pStart_zero s.toBlock 2).trans (pStart_length s.toBlock 1).symm

/-! ### The frame's length by counting (rule R161) -/

theorem sum_chWidth (modes : List ChMode) :
    (modes.map chWidth).sum = 12 * modes.count .analog + modes.count .digital := by
  induction modes with
  | nil => rfl
  | cons m rest ih => cases m <;> simp [ih, chWidth] <;> omega

/-- Stated without subtraction: the encoders in mode NONE are those that take no bits. -/
theorem sum_encWidth (modes : List EncMode) :
    (modes.map encWidth).sum + 48 * modes.count .off = 48 * modes.length := by
  induction modes with
  | nil => rfl
  | cons m rest ih => cases m <;> simp [encWidth] <;> omega

theorem sum_replyBits (buses : List (List Peripheral)) :
    (buses.map replyBits).sum = (buses.flatten.map fun p => p.rlen.toNat).sum := by
  induction buses with
  | nil => rfl
  | cons ps rest ih => simp [replyBits, ih]

theorem encWidth_of_ne_off {m : EncMode} (h : m ≠ .off) : encWidth m = 48 := by
  cases m with
  | off => exact absurd rfl h
  | quadrature | pwm => rfl

section
variable {s : Block}

theorem layoutTlen_bounds :
    8 * (s.layoutTlen - 2) < s.payloadBits + 8 ∧ s.payloadBits ≤ 8 * (s.layoutTlen - 2) := by
  simp only [Block.layoutTlen]
  omega

theorem chBits_of_forall {m : ChMode} (h : ∀ c : Fin 12, s.chmode[c] = m) : s.chBits = 12 * chWidth m :=
  sum_map_of_forall_eq fun c => congrArg chWidth (h c)

theorem busBits_of_empty (h : ∀ b : Fin 3, s.ptab[b] = []) : s.busBits = 0 :=
  sum_map_of_forall_eq fun b => congrArg replyBits (h b)

theorem encBits_of_off (h : ∀ e : Fin 6, s.encmode[e] = .off) : s.encBits = 0 :=
  sum_map_of_forall_eq fun e => congrArg encWidth (h e)

theorem encBits_of_active (h : ∀ e : Fin 6, s.encmode[e] ≠ .off) : s.encBits = 6 * 48 :=
  sum_map_of_forall_eq fun e => encWidth_of_ne_off (h e)

theorem payloadBits_by_counts : s.payloadBits = 8 + 12 * s.chmode.toList.count .analog +
    s.chmode.toList.count .digital + 48 * (6 - s.encmode.toList.count .off) +
      ((s.ptab.toList.flatten).map fun p => p.rlen.toNat).sum := by
  have hcount : s.encmode.toList.count .off ≤ 6 := by simpa using s.encmode.toList.count_le_length (a := .off)
  have henc := sum_encWidth s.encmode.toList
  rw [Vector.length_toList] at henc
  rw [payloadBits_eq, Block.chBits, Block.encBits, Block.busBits, sum_chWidth, sum_replyBits]
  omega

end

/-- Settles O32. -/
theorem telemetryLengthFormula : Obligations.TelemetryLengthFormula := by
  intro s
  have hbits := payloadBits_eq s.toBlock
  obtain ⟨hlt, hle⟩ := layoutTlen_bounds (s := s.toBlock)
  refine ⟨payloadBits_by_counts, hlt, hle, by omega, fun hch henc hbus => ?_,
    fun hch henc => ⟨?_, fun hbus => ?_⟩⟩
  · rw [chBits_of_forall hch, encBits_of_off henc, busBits_of_empty hbus, chWidth] at hbits
    omega
  · rw [encStart_end, chBits_of_forall hch, encBits_of_active henc, chWidth]
  · rw [chBits_of_forall hch, encBits_of_active henc, busBits_of_empty hbus, chWidth] at hbits
    omega

/-! ### A locked configuration (rule R168) -/

/-- The configuration, the layout's length and the lock, which a step leaves alone while LOCK = 1. -/
structure SameConfiguration (s t : State) : Prop where
  lock : t.lock = s.lock
  chmode : t.chmode = s.chmode
  encmode : t.encmode = s.encmode
  ptab : t.ptab = s.ptab
  tlen : t.tlen = s.tlen

theorem sameConfiguration_withError (e : Code) (s : State) : SameConfiguration s (s.withError e) :=
  ⟨rfl, rfl, rfl, rfl, rfl⟩

theorem setch_locked {s : State} (hlock : s.lock = true) (c : BitVec 4) (m : BitVec 2) :
    FailsWith (.setch c m) s .locked :=
  if_pos hlock

theorem setenc_locked {s : State} (hlock : s.lock = true) (e : BitVec 4) (m : BitVec 2) :
    FailsWith (.setenc e m) s .locked :=
  if_pos hlock

/-- A command that fails keeps the configuration. -/
theorem FailsWith.sameConfiguration {i : Instr} {s t : State} {e : Code} (hfail : FailsWith i s e)
    (h : exec i s = .next t) : SameConfiguration s t := by
  obtain rfl : s.withError e = t := Host.Outcome.next.inj (hfail.symm.trans h)
  exact sameConfiguration_withError e s

/-- A locked layout is laid out again as it was: TLEN holds its length already (rule R40). -/
theorem execLayout_sameConfiguration {s t : State} (hs : Invariant s) (hlock : s.lock = true)
    (h : execLayout s = .next t) : SameConfiguration s t := by
  rcases execLayout_cases _ _ h with ⟨-, rfl⟩ | ⟨-, rfl⟩
  · exact sameConfiguration_withError _ s
  · obtain ⟨htlen, -⟩ := hs.locked hlock
    refine ⟨hlock.symm, rfl, rfl, rfl, ?_⟩
    change BitVec.ofNat 7 s.layoutTlen = s.tlen
    rw [← htlen, BitVec.ofNat_toNat, BitVec.setWidth_eq]

/-- Under the lock every command but CFGCLR keeps the configuration: SETCH, SETENC and ATTACH fail, LAYOUT writes what
is there, and no other command writes any of it. -/
theorem exec_sameConfiguration {i : Instr} {s t : State} (hs : Invariant s) (hlock : s.lock = true)
    (hi : i ≠ .cfgclr) (h : exec i s = .next t) : SameConfiguration s t := by
  cases i with
  | setch c m => exact (setch_locked hlock c m).sameConfiguration h
  | setenc e m => exact (setenc_locked hlock e m).sameConfiguration h
  | attach b ty a => exact (attach_locked hlock b ty a).sameConfiguration h
  | layout => exact execLayout_sameConfiguration hs hlock h
  | cfgclr => exact absurd rfl hi
  | _ =>
    have hw := exec_onlyNamedWrites h
    constructor <;> by_contra hne
    case lock => simpa using hw.lock hne
    case chmode => simpa using hw.chmode hne
    case encmode => simpa using hw.encmode hne
    case ptab => simpa using hw.ptab hne
    case tlen => simpa using hw.tlen hne

/-- What a step can do to the configuration: keep it, reset it, or run a command. -/
theorem step_configuration_cases {s t : State} (h : step s = .next t) :
    SameConfiguration s t ∨ (∃ rest, s.inputs = .reset :: rest ∧ t.lock = false) ∨
      ∃ rest w i, s.inputs = .write s.blockBase 4 w :: rest ∧ decode w = .ok i ∧
        exec i { s with inputs := rest, cmdLast := w } = .next t := by
  rcases step_outcomes s t h with ⟨-, rfl⟩ | ⟨rest, hin, rfl⟩ | ⟨rest, a, n, -, hread⟩ | hexec |
    ⟨rest, w, e, -, -, rfl⟩ | ⟨rest, a, n, d, -, hwrite⟩
  · exact .inl ⟨rfl, rfl, rfl, rfl, rfl⟩
  · exact .inr (.inl ⟨rest, hin, rfl⟩)
  · rcases hread with ⟨v, rfl⟩ | ⟨e, -, rfl⟩ <;> exact .inl ⟨rfl, rfl, rfl, rfl, rfl⟩
  · exact .inr (.inr hexec)
  · exact .inl ⟨rfl, rfl, rfl, rfl, rfl⟩
  · rcases hwrite with rfl | rfl | ⟨j, -, rfl⟩ | ⟨e, -, rfl⟩ <;> exact .inl ⟨rfl, rfl, rfl, rfl, rfl⟩

/-- Settles O49. -/
theorem lockedConfigurationIsFrozen : Obligations.LockedConfigurationIsFrozen := by
  intro s hs hlock
  refine ⟨setch_locked hlock, setenc_locked hlock, attach_locked hlock, fun t h => ?_⟩
  rcases step_configuration_cases h with ⟨hl, hch, henc, hptab, htlen⟩ | ⟨rest, hin, hl⟩ |
    ⟨rest, w, i, hin, hw, hexec⟩
  · exact .inl ⟨hl.trans hlock, hch, henc, hptab, htlen⟩
  · exact .inr ⟨hl, rest, .inl hin⟩
  · by_cases hi : i = .cfgclr
    · subst hi
      obtain rfl := execCfgclr_cases _ _ hexec
      obtain rfl := word_of_decode hw rfl
      exact .inr ⟨rfl, rest, .inr hin⟩
    · have hs' : Invariant { s with inputs := rest, cmdLast := w } := hs.setRegisters ..
      obtain ⟨hl, hch, henc, hptab, htlen⟩ := exec_sameConfiguration hs' hlock hi hexec
      exact .inl ⟨hl.trans hlock, hch, henc, hptab, htlen⟩

/-! ### The fields of the planned frame (rules R161 and R190) -/

section
variable (s : Block)

/-- A channel's field ends in the payload. -/
theorem chStart_add_le_payloadBits (c : Fin 12) :
    s.chStart (c.val + 1) + chWidth s.chmode[c] ≤ s.payloadBits := by
  have hle : s.chStart (c.val + 2) ≤ 8 + s.chBits := Nat.add_le_add_left (sum_map_take_le ..) 8
  rw [← chStart_succ, payloadBits_eq]
  omega

/-- An encoder's fields end in the payload. -/
theorem encStart_add_le_payloadBits (e : Fin 6) :
    s.encStart (e.val + 1) + encWidth s.encmode[e] ≤ s.payloadBits := by
  have hle : s.encStart (e.val + 2) ≤ s.chStart 13 + s.encBits := Nat.add_le_add_left (sum_map_take_le ..) _
  rw [chStart_end] at hle
  rw [← encStart_succ, payloadBits_eq]
  omega

/-- A slot's reply ends in the payload: with its bus, or before it. -/
theorem pStart_add_le_payloadBits {b : Fin 3} {slot : Nat} {p : Peripheral} (hp : s.ptab[b][slot]? = some p) :
    s.pStart b slot + p.rlen.toNat ≤ s.payloadBits := by
  have hslot : s.pStart b (slot + 1) ≤ s.pStart b s.ptab[b].length := by
    rw [Block.pStart, Block.pStart, List.take_length]
    exact Nat.add_le_add_left (sum_map_take_le ..) _
  have hbus : ((s.ptab.toList.take (b.val + 1)).map replyBits).sum ≤ s.busBits := sum_map_take_le ..
  rw [pStart_length, encStart_end] at hslot
  rw [← pStart_succ s hp, payloadBits_eq]
  omega

end

/-- The part of an encoder lies in its 48 bits. -/
theorem encPart_end_le (p : EncPart) : (encPart p).1 + (encPart p).2 ≤ 48 := by
  cases p <;> decide

theorem encPart_add_le_payloadBits (s : Block) {e : Fin 6} (he : s.encmode[e] ≠ .off) (p : EncPart) :
    s.encStart (e.val + 1) + (encPart p).1 + (encPart p).2 ≤ s.payloadBits := by
  have hfield := encStart_add_le_payloadBits s e
  have hpart := encPart_end_le p
  rw [encWidth_of_ne_off he] at hfield
  omega

/-- With LEN = TLEN a locked layout's payload lies in the buffer. -/
theorem payloadBits_le_bitLength {s : State} (hs : Invariant s) (hlen : s.len.toNat = s.tlen.toNat)
    (hlock : s.lock = true) : s.payloadBits ≤ s.bitLength := by
  obtain ⟨htlen, -⟩ := hs.locked hlock
  obtain ⟨-, hle⟩ := layoutTlen_bounds (s := s.toBlock)
  rw [State.bitLength]
  omega

/-- OOB is raised for a configured field of a locked layout that ends outside the buffer, and for no other. -/
theorem fieldCheck_oob {s : State} {configured : Bool} {stop : Nat} (h : fieldCheck s configured stop = some .oob) :
    s.lock = true ∧ configured = true ∧ s.bitLength < stop := by
  unfold fieldCheck at h
  split_ifs at h with hlock hconf hvalid hstop <;> cases h
  exact ⟨by simpa using hlock, by simpa using hconf, hstop⟩

theorem raise_ne_oob {e : Code} {s t : State} (he : e ≠ .oob) (h : raise e s = .next t) : t.code ≠ .oob := by
  obtain rfl : s.withError e = t := Host.Outcome.next.inj h
  exact he

section
variable {s : State} (hs : Invariant s) (hlen : s.len.toNat = s.tlen.toNat)
include hs hlen

/-- A field that lies in the payload when it is configured is not out of the planned frame. -/
theorem settle_fieldCheck_ne_oob {configured : Bool} {stop : Nat}
    (hstop : configured = true → stop ≤ s.payloadBits) {u t : State}
    (h : settle (fieldCheck s configured stop) s u = .next t) : t.code ≠ .oob := by
  rcases settle_cases _ _ _ _ h with ⟨e, he, rfl⟩ | ⟨-, rfl⟩
  · rintro rfl
    obtain ⟨hlock, hconf, hoob⟩ := fieldCheck_oob he
    have hle := payloadBits_le_bitLength hs hlen hlock
    have := hstop hconf
    omega
  · exact Code.noConfusion

/-- No field command raises OOB on a frame of the planned length. -/
theorem fieldCommand_ne_oob {i : Instr} {t : State} (hi : isFieldCommand i = true) (h : exec i s = .next t) :
    t.code ≠ .oob := by
  cases i with
  | fxch c =>
    cases hc : channelOf c with
    | none => exact raise_ne_oob (by decide) ((execFxch_of_no_channel hc s).symm.trans h)
    | some k =>
      refine settle_fieldCheck_ne_oob hs hlen (fun _ => ?_) ((execFxch_of_channelOf hc s).symm.trans h)
      rw [(numbered_eq_some ..).1 hc]
      exact chStart_add_le_payloadBits s.toBlock k
  | fxenc e p =>
    cases he : encoderOf e with
    | none => exact raise_ne_oob (by decide) ((execFxenc_of_no_encoder he p s).symm.trans h)
    | some k =>
      refine settle_fieldCheck_ne_oob hs hlen (fun hconf => ?_) ((execFxenc_of_encoderOf he p s).symm.trans h)
      rw [(numbered_eq_some ..).1 he]
      exact encPart_add_le_payloadBits s.toBlock (by simpa using hconf) p
  | fxper b slot =>
    cases hb : busOf b with
    | none => exact raise_ne_oob (by decide) ((execFxper_of_no_bus hb slot s).symm.trans h)
    | some k =>
      cases hp : s.ptab[k][slot.toNat]? with
      | none => exact raise_ne_oob (by decide) ((execFxper_of_no_slot hb hp).symm.trans h)
      | some p =>
        exact settle_fieldCheck_ne_oob hs hlen (fun _ => pStart_add_le_payloadBits s.toBlock hp)
          ((execFxper_of_slot hb hp).symm.trans h)
  | _ => cases hi

/-- A field command completes for a configured field of the payload, on a valid frame of the planned length. -/
theorem exec_of_planned (hlock : s.lock = true) (hvalid : s.valid = true) {i : Instr} {u : State} {configured : Bool}
    {stop : Nat} (hexec : exec i s = settle (fieldCheck s configured stop) s u) (hconf : configured = true)
    (hstop : stop ≤ s.payloadBits) : exec i s = .next u.withOk := by
  have hcheck : fieldCheck s configured stop = none :=
    (fieldCheck_eq_none ..).2 ⟨hlock, hconf, hvalid, hstop.trans (payloadBits_le_bitLength hs hlen hlock)⟩
  rw [hexec, hcheck, settle_none]

end

/-- A bit index put into CURSOR is not raised by it. -/
theorem toNat_ofNat_le {n x bound : Nat} (h : x ≤ bound) : (BitVec.ofNat n x).toNat ≤ bound := by
  rw [BitVec.toNat_ofNat]
  exact (Nat.mod_le ..).trans h

/-- Settles O43: a configured field ends in the payload, and the payload of a locked layout in the buffer. -/
theorem fieldsLieWithinThePlannedFrame : Obligations.FieldsLieWithinThePlannedFrame := by
  intro s hs hlen
  refine ⟨fun i t => fieldCommand_ne_oob hs hlen, fun hlock hvalid => ⟨fun c k hc hk => ?_, fun e p k he hk => ?_,
    fun b slot k hb hslot => ?_⟩⟩
  · have hend := chStart_add_le_payloadBits s.toBlock k
    rw [← hc] at hend
    have hexec := execFxch_of_channelOf ((numbered_eq_some ..).2 hc) s
    exact ⟨_, exec_of_planned (i := .fxch c) hs hlen hlock hvalid hexec (bne_iff_ne.2 hk) hend, rfl,
      toNat_ofNat_le hend⟩
  · have hend := encPart_add_le_payloadBits s.toBlock hk p
    rw [← he] at hend
    have hexec := execFxenc_of_encoderOf ((numbered_eq_some ..).2 he) p s
    exact ⟨_, exec_of_planned (i := .fxenc e p) hs hlen hlock hvalid hexec (bne_iff_ne.2 hk) hend, rfl,
      toNat_ofNat_le hend⟩
  · obtain ⟨q, hq⟩ : ∃ q, s.ptab[k][slot.toNat]? = some q := ⟨_, List.getElem?_eq_getElem hslot⟩
    have hend := pStart_add_le_payloadBits s.toBlock hq
    have hexec := execFxper_of_slot ((numbered_eq_some ..).2 hb) hq
    refine ⟨_, exec_of_planned (i := .fxper b slot) hs hlen hlock hvalid hexec rfl hend, rfl, ?_⟩
    have hreply : q.rlen.toNat ≠ 0 := fun h0 =>
      hs.replies k q (List.mem_of_getElem? hq) (BitVec.eq_of_toNat_eq h0)
    exact (toNat_ofNat_le le_rfl).trans_lt (by omega)

end Sys2Proof.Machine

namespace Sys2Proof.Machine

/-! ### The words and the checks of the field commands (rules R97, R98 and R190) -/

/-- In FXCH the bits above CH are reserved. -/
theorem and_maskF_ch_iff (w : Word) : w &&& 0xFFFFF0FF#32 = (opcodeOf w).setWidth 32 ↔ w.extractLsb' 12 20 = 0#20 :=
  and_highMask_iff w (by decide) (by decide) rfl (by decide)

/-- In FXENC the bits above PART are reserved. -/
theorem and_maskF_iff (w : Word) : w &&& 0xFFFFE0FF#32 = (opcodeOf w).setWidth 32 ↔ w.extractLsb' 13 19 = 0#19 :=
  and_highMask_iff w (by decide) (by decide) rfl (by decide)

/-- PART is bit 12 of the word (rule R97). -/
theorem partOf_extractLsb' (w : Word) : partOf (w.extractLsb' 12 1) = if w.getLsbD 12 then .vel else .pos := by
  have hpart : ∀ code : BitVec 1, partOf code = if code.getLsbD 0 then .vel else .pos := by decide
  rw [hpart, BitVec.getLsbD_extractLsb']
  simp

theorem fieldCheck_of_notcfg {s : State} {configured : Bool} (h : s.lock = false ∨ configured = false) (stop : Nat) :
    fieldCheck s configured stop = some .notcfg := by
  rcases h with hlock | rfl
  · simp [fieldCheck, hlock]
  · simp [fieldCheck]

theorem fieldCheck_of_noframe {s : State} (hlock : s.lock = true) (hvalid : s.valid = false) (stop : Nat) :
    fieldCheck s true stop = some .noframe := by
  simp [fieldCheck, hlock, hvalid]

theorem fieldCheck_of_oob {s : State} {stop : Nat} (hlock : s.lock = true) (hvalid : s.valid = true)
    (hstop : s.bitLength < stop) : fieldCheck s true stop = some .oob := by
  simp [fieldCheck, hlock, hvalid, hstop]

/-- A command that checks a field and has the effects `t` fails with the field's first error, and has those effects
when the field has none. -/
theorem exec_of_fieldCheck {i : Instr} {s t : State} {configured : Bool} {stop : Nat}
    (hexec : exec i s = settle (fieldCheck s configured stop) s t) :
    (s.lock = false ∨ configured = false → FailsWith i s .notcfg) ∧
      (s.lock = true → configured = true →
        (s.valid = false → FailsWith i s .noframe) ∧
        (s.valid = true → s.bitLength < stop → FailsWith i s .oob) ∧
        (s.valid = true → stop ≤ s.bitLength → exec i s = .next t.withOk)) := by
  refine ⟨fun h => failsWith_of_settle hexec (fieldCheck_of_notcfg h stop), ?_⟩
  rintro hlock rfl
  refine ⟨?_, ?_, ?_⟩
  · exact fun hvalid => failsWith_of_settle hexec (fieldCheck_of_noframe hlock hvalid stop)
  · exact fun hvalid hstop => failsWith_of_settle hexec (fieldCheck_of_oob hlock hvalid hstop)
  · intro hvalid hstop
    rw [hexec, (fieldCheck_eq_none ..).2 ⟨hlock, rfl, hvalid, hstop⟩, settle_none]

/-- CURSOR holds every bit index up to 8·LEN: LEN has 16 bits. -/
theorem toNat_ofNat_of_le_bitLength {s : State} {x : Nat} (h : x ≤ s.bitLength) : (BitVec.ofNat 32 x).toNat = x := by
  have hlen := s.len.isLt
  rw [State.bitLength] at h
  rw [BitVec.toNat_ofNat]
  omega

/-! ### FXCH (rule R191) -/

theorem chWidth_of_ne_off {m : ChMode} (h : m ≠ .off) : chWidth m = if m = .analog then 12 else 1 := by
  cases m with
  | off => exact absurd rfl h
  | analog | digital => rfl

/-- Settles O40. -/
theorem fxchReadsTheChannelField : Obligations.FxchReadsTheChannelField := by
  refine ⟨fun w hop => encodes_of_row (by rw [hop]; rfl) (by rw [hop]; rfl) (and_maskF_ch_iff w), fun c s => ?_⟩
  refine ⟨fun hc => execFxch_of_no_channel ((numbered_eq_none ..).2 hc) s, fun k hc => ?_⟩
  obtain ⟨hnotcfg, hconf⟩ :=
    exec_of_fieldCheck (i := .fxch c) (execFxch_of_channelOf ((numbered_eq_some ..).2 hc) s)
  refine ⟨fun h => hnotcfg (h.imp_right bne_eq_false_iff_eq.2),
    fun hlock hk => (hconf hlock (bne_iff_ne.2 hk)).1, fun hlock hk hvalid width hwidth => ?_⟩
  obtain ⟨-, hoob, hok⟩ := hconf hlock (bne_iff_ne.2 hk)
  obtain rfl := hwidth.trans (chWidth_of_ne_off hk).symm
  exact ⟨hoob hvalid, fun hend => ⟨_, _, hok hvalid hend, toNat_ofNat_of_le_bitLength hend,
    fun _ hj => getLsbD_zeroExtend64_raw _ _ _ hj⟩⟩

/-! ### FXENC (rule R192) -/

theorem encPart_eq (p : EncPart) : encPart p = (if p = .pos then 0 else 16, if p = .pos then 16 else 32) := by
  cases p <;> rfl

/-- A range sign-extended at its full width: its last bit is repeated above it. -/
theorem getLsbD_signExtend64_raw_self (m : Memory) (s : Nat) {w j : Nat} (hw : 0 < w) (hj : j < 64) :
    (signExtend64 (Memory.raw m s w) w).getLsbD j = Memory.bit m (s + min j (w - 1)) := by
  rw [getLsbD_signExtend64_raw m s w hw hj]
  split_ifs with hlow
  · rw [decide_eq_true hlow, Bool.true_and, Nat.min_eq_left (by omega)]
  · rw [decide_eq_true le_rfl, Bool.true_and, Nat.min_eq_right (by omega)]

theorem encPart_width_pos (p : EncPart) : 0 < (encPart p).2 := by
  cases p <;> decide

/-- Settles O41. -/
theorem fxencReadsTheEncoderField : Obligations.FxencReadsTheEncoderField := by
  refine ⟨fun w hop => ?_, fun e p s => ?_⟩
  · rw [← partOf_extractLsb']
    exact encodes_of_row (by rw [hop]; rfl) (by rw [hop]; rfl) (and_maskF_iff w)
  · refine ⟨fun he => execFxenc_of_no_encoder ((numbered_eq_none ..).2 he) p s, fun k he => ?_⟩
    obtain ⟨hnotcfg, hconf⟩ :=
      exec_of_fieldCheck (i := .fxenc e p) (execFxenc_of_encoderOf ((numbered_eq_some ..).2 he) p s)
    refine ⟨fun h => hnotcfg (h.imp_right bne_eq_false_iff_eq.2),
      fun hlock hk => (hconf hlock (bne_iff_ne.2 hk)).1,
      fun hlock hk hvalid start width hstart hwidth => ?_⟩
    obtain ⟨-, hoob, hok⟩ := hconf hlock (bne_iff_ne.2 hk)
    obtain rfl : start = s.encStart e.toNat + (encPart p).1 := by rw [hstart, encPart_eq]
    obtain rfl : width = (encPart p).2 := by rw [hwidth, encPart_eq]
    exact ⟨hoob hvalid, fun hend => ⟨_, _, hok hvalid hend, toNat_ofNat_of_le_bitLength hend,
      fun _ hj => getLsbD_signExtend64_raw_self _ _ (encPart_width_pos p) hj⟩⟩

/-! ### FXPER (rule R194) -/

/-- The fields of the word that locates a reply. -/
theorem fxperResult_fields (flag : Bool) (rlen : BitVec 16) (start : Nat) :
    (fxperResult flag rlen start).extractLsb' 0 32 = BitVec.ofNat 32 start ∧
      (fxperResult flag rlen start).extractLsb' 32 16 = rlen ∧ (fxperResult flag rlen start).getLsbD 48 = flag ∧
      (fxperResult flag rlen start).extractLsb' 49 15 = 0#15 := by
  refine ⟨?_, ?_, ?_, ?_⟩
  case refine_3 =>
    simp only [fxperResult, BitVec.getLsbD_append]
    simp
  all_goals
    refine BitVec.eq_of_getLsbD_eq fun j hj => ?_
    simp only [fxperResult, BitVec.getLsbD_extractLsb', BitVec.getLsbD_append]
    interval_cases j <;> simp

/-- Settles O42: a slot past the bus's last has no field to check, and any other fails or ends by those checks. -/
theorem fxperLocatesTheReply : Obligations.FxperLocatesTheReply := by
  refine ⟨fun w hop => encodes_of_row (by rw [hop]; rfl) (by rw [hop]; rfl) (and_maskM_iff w), fun b slot s => ?_⟩
  refine ⟨?_, fun k hb => ⟨fun h => ?_, fun p hp hlock => ?_⟩⟩
  · rintro rfl
    exact execFxper_of_no_bus (b := 0#2) (by decide) slot s
  · have hbus : busOf b = some k := (numbered_eq_some ..).2 hb
    cases hp : s.ptab[k][slot.toNat]? with
    | none => exact execFxper_of_no_slot hbus hp
    | some p =>
      obtain ⟨hslot, -⟩ := List.getElem?_eq_some_iff.1 hp
      obtain ⟨hnotcfg, -⟩ := exec_of_fieldCheck (i := .fxper b slot) (execFxper_of_slot hbus hp)
      exact hnotcfg (.inl (h.resolve_right (Nat.not_le.2 hslot)))
  · have hexec := execFxper_of_slot ((numbered_eq_some ..).2 hb) hp
    obtain ⟨-, hconf⟩ := exec_of_fieldCheck (i := .fxper b slot) hexec
    obtain ⟨hnoframe, hoob, hok⟩ := hconf hlock rfl
    refine ⟨hnoframe, hoob, fun hvalid hend => ?_⟩
    obtain ⟨hlow, hrlen, hflag, htop⟩ :=
      fxperResult_fields (Memory.bit s.mem (s.pStart k slot.toNat)) p.rlen (s.pStart k slot.toNat)
    have hstart : (BitVec.ofNat 32 (s.pStart k slot.toNat)).toNat = s.pStart k slot.toNat :=
      toNat_ofNat_of_le_bitLength ((Nat.le_add_right ..).trans hend)
    exact ⟨_, _, hok hvalid hend, hstart, (congrArg BitVec.toNat hlow).trans hstart, hrlen, hflag, htop⟩

end Sys2Proof.Machine

namespace Sys2Proof.Machine

/-! ### NOP and CLRERR (rules R210 and R211) -/

theorem exec_nop (s : State) : exec .nop s = .next s.withOk := rfl

theorem exec_clrerr (s : State) : exec .clrerr s = .next (State.withOk { s with sticky := false }) := rfl

/-- Settles O20: both commands are of format N, whose row reserves every bit above OP, and neither has a check. -/
theorem controlCommands : Obligations.ControlCommands := by
  refine ⟨exec_nop, exec_clrerr, fun w => ⟨fun hop => ?nop, fun hop => ?clrerr⟩⟩
  case nop => exact encodes_of_row (by rw [hop]; rfl) (by rw [hop]; rfl) (and_maskN_iff w)
  case clrerr => exact encodes_of_row (by rw [hop]; rfl) (by rw [hop]; rfl) (and_maskN_iff w)

end Sys2Proof.Machine

namespace Sys2Proof.Machine

/-! ### The codes each command can end with (rule R220) -/

/-- A success is listed for every command. -/
theorem ok_mem_codesOf (i : Instr) : Code.ok ∈ codesOf i := by cases i <;> simp [codesOf]

/-- A range whose kind and width a word encodes fails by its length or by its end alone (rules R124 and R125). -/
theorem rangeCheck_cases_of_legal {s : State} {start l : Nat} {k : Kind} {w : Width} {e : Code}
    (hk : legalKind k w = true) (h : rangeCheck s start l k w = some e) : e = .badlen ∨ e = .oob := by
  rw [rangeCheck, if_neg (by simp [hk])] at h
  split_ifs at h
  · exact .inl (Option.some.inj h).symm
  · exact .inr (Option.some.inj h).symm

/-- Settles O46: an error is one of those that the meaning's `_cases` lemma names, and ILLEGAL, which a range's checks
answer too, is shut out by the kind and width of a well-formed command. -/
theorem commandsRaiseOnlyTheirListedCodes : Obligations.CommandsRaiseOnlyTheirListedCodes := by
  intro i s t hwf h
  cases i with
  | nop => obtain rfl := execNop_cases _ _ h; exact ok_mem_codesOf _
  | clrerr => obtain rfl := execClrerr_cases _ _ h; exact ok_mem_codesOf _
  | setid => obtain rfl := execSetid_cases _ _ _ h; exact ok_mem_codesOf _
  | cfgclr => obtain rfl := execCfgclr_cases _ _ h; exact ok_mem_codesOf _
  | alloc =>
    rcases execAlloc_cases _ _ _ h with ⟨-, rfl⟩ | ⟨-, rfl⟩
    · simp [codesOf]
    · exact ok_mem_codesOf _
  | setbit =>
    rcases execSetbit_cases _ _ _ _ h with ⟨-, rfl⟩ | ⟨-, rfl⟩
    · simp [codesOf]
    · exact ok_mem_codesOf _
  | getbit =>
    rcases execGetbit_cases _ _ _ h with ⟨-, rfl⟩ | ⟨-, rfl⟩
    · simp [codesOf]
    · exact ok_mem_codesOf _
  | getrange =>
    rcases execGetrange_cases _ _ _ _ _ h with ⟨e, he, rfl⟩ | ⟨-, rfl⟩
    · rcases rangeCheck_cases_of_legal hwf he with rfl | rfl <;> simp [codesOf]
    · exact ok_mem_codesOf _
  | getnext =>
    rcases execGetnext_cases _ _ _ _ _ h with ⟨e, he, rfl⟩ | ⟨-, rfl⟩
    · rcases rangeCheck_cases_of_legal hwf he with rfl | rfl <;> simp [codesOf]
    · exact ok_mem_codesOf _
  | crcgen =>
    rcases execCrcgen_cases _ _ h with ⟨-, rfl⟩ | ⟨-, rfl⟩
    · simp [codesOf]
    · exact ok_mem_codesOf _
  | framechk =>
    rcases execFramechk_cases _ _ h with ⟨-, rfl⟩ | ⟨-, -, rfl⟩ | ⟨-, -, -, rfl⟩ | ⟨-, -, -, rfl⟩ <;>
      exact ok_mem_codesOf _
  | layout =>
    rcases execLayout_cases _ _ h with ⟨-, rfl⟩ | ⟨-, rfl⟩
    · simp [codesOf]
    · exact ok_mem_codesOf _
  | setch =>
    rcases execSetch_cases _ _ _ _ h with ⟨e, he, rfl⟩ | ⟨k, mode, -, -, -, rfl⟩
    · rcases he with rfl | rfl | rfl <;> simp [codesOf]
    · exact ok_mem_codesOf _
  | setenc =>
    rcases execSetenc_cases _ _ _ _ h with ⟨e, he, rfl⟩ | ⟨k, mode, -, -, -, rfl⟩
    · rcases he with rfl | rfl | rfl <;> simp [codesOf]
    · exact ok_mem_codesOf _
  | attach =>
    rcases execAttach_cases _ _ _ _ _ h with ⟨e, he, rfl⟩ | ⟨k, -, -, -, rfl⟩
    · rcases he with rfl | rfl | rfl | rfl | rfl <;> simp [codesOf]
    · exact ok_mem_codesOf _
  | fxch =>
    rcases execFxch_cases _ _ _ h with ⟨e, he, rfl⟩ | ⟨k, -, -, rfl⟩
    · rcases he with rfl | rfl | rfl | rfl <;> simp [codesOf]
    · exact ok_mem_codesOf _
  | fxenc =>
    rcases execFxenc_cases _ _ _ _ h with ⟨e, he, rfl⟩ | ⟨k, -, -, rfl⟩
    · rcases he with rfl | rfl | rfl | rfl <;> simp [codesOf]
    · exact ok_mem_codesOf _
  | fxper =>
    rcases execFxper_cases _ _ _ _ h with ⟨e, he, rfl⟩ | ⟨k, p, -, -, -, rfl⟩
    · rcases he with rfl | rfl | rfl | rfl <;> simp [codesOf]
    · exact ok_mem_codesOf _

/-! ### What a command makes of the errors recorded before it (rule R227) -/

/-- The state as other errors recorded before it, or none, would leave it: CODE and STICKY are any two values. -/
def State.withHistory (c : Code) (b : Bool) (s : State) : State := { s with code := c, sticky := b }

/-- Two runs of a command, the second from a state whose STICKY was `b`, agree: the second answers what the first does,
with STICKY at 1 where it fails, and at `b` where it does not. -/
def Agree (b : Bool) (r r' : Result) : Prop :=
  ∀ t, r = .next t → r' = .next { t with sticky := if t.code ≠ .ok then true else b }

section
variable {s u : State} {c : Code} {b : Bool}

/-- An error takes STICKY to 1 and CODE to its own, whatever both were. -/
theorem agree_raise {e : Code} (he : e ≠ .ok) : Agree b (raise e s) (raise e (s.withHistory c b)) := by
  rintro t ⟨⟩
  rw [State.withError_code, if_pos he]
  rfl

/-- A success takes CODE to OK, and leaves STICKY as its effects do. -/
theorem agree_complete : Agree b (complete u) (complete (u.withHistory c b)) := by
  rintro t ⟨⟩
  rfl

theorem agree_ite {p : Prop} [Decidable p] {r₁ r₁' r₂ r₂' : Result} (h₁ : Agree b r₁ r₁') (h₂ : Agree b r₂ r₂') :
    Agree b (if p then r₁ else r₂) (if p then r₁' else r₂') := by
  split_ifs
  · exact h₁
  · exact h₂

/-- A command with one check. -/
theorem agree_raise_or_complete {p : Prop} [Decidable p] {e : Code} (he : e ≠ .ok) :
    Agree b (if p then raise e s else complete u)
      (if p then raise e (s.withHistory c b) else complete (u.withHistory c b)) :=
  agree_ite (agree_raise he) agree_complete

/-- Checks that answer errors alone. -/
theorem agree_settle {check : Option Code} (hcheck : ∀ e, check = some e → e ≠ .ok) :
    Agree b (settle check s u) (settle check (s.withHistory c b) (u.withHistory c b)) := by
  cases check with
  | none => exact agree_complete
  | some e => exact agree_raise (hcheck e rfl)

end

theorem fieldCheck_ne_ok {s : State} {configured : Bool} {stop : Nat} {e : Code}
    (h : fieldCheck s configured stop = some e) : e ≠ .ok := by
  rcases fieldCheck_cases _ _ _ _ h with rfl | rfl | rfl <;> decide

theorem attachCheck_ne_ok {s : State} {b : Fin 3} {ty : BitVec 4} {a : BitVec 7} {e : Code}
    (h : attachCheck s b ty a = some e) : e ≠ .ok := by
  unfold attachCheck at h
  split_ifs at h <;> obtain rfl := Option.some.inj h <;> decide

section
variable (s : State) (c : Code) (b : Bool)

theorem execFramechk_agree : Agree b (execFramechk s) (execFramechk (s.withHistory c b)) :=
  agree_ite agree_complete (agree_ite agree_complete (agree_ite agree_complete agree_complete))

theorem execSetch_agree (ch : BitVec 4) (m : BitVec 2) :
    Agree b (execSetch ch m s) (execSetch ch m (s.withHistory c b)) := by
  refine agree_ite (agree_raise (by decide)) ?_
  cases channelOf ch with
  | none => exact agree_raise (by decide)
  | some k =>
    cases chModeOf m with
    | none => exact agree_raise (by decide)
    | some mode => exact agree_complete

theorem execSetenc_agree (e : BitVec 4) (m : BitVec 2) :
    Agree b (execSetenc e m s) (execSetenc e m (s.withHistory c b)) := by
  refine agree_ite (agree_raise (by decide)) ?_
  cases encoderOf e with
  | none => exact agree_raise (by decide)
  | some k =>
    cases encModeOf m with
    | none => exact agree_raise (by decide)
    | some mode => exact agree_complete

theorem execAttach_agree (bus : BitVec 2) (ty : BitVec 4) (a : BitVec 7) :
    Agree b (execAttach bus ty a s) (execAttach bus ty a (s.withHistory c b)) := by
  refine agree_ite (agree_raise (by decide)) ?_
  cases busOf bus with
  | none => exact agree_raise (by decide)
  | some k => exact agree_settle fun _ => attachCheck_ne_ok

theorem execFxch_agree (ch : BitVec 4) : Agree b (execFxch ch s) (execFxch ch (s.withHistory c b)) := by
  unfold execFxch
  cases channelOf ch with
  | none => exact agree_raise (by decide)
  | some k => exact agree_settle fun _ => fieldCheck_ne_ok

theorem execFxenc_agree (e : BitVec 4) (p : EncPart) :
    Agree b (execFxenc e p s) (execFxenc e p (s.withHistory c b)) := by
  unfold execFxenc
  cases encoderOf e with
  | none => exact agree_raise (by decide)
  | some k => exact agree_settle fun _ => fieldCheck_ne_ok

theorem execFxper_agree (bus : BitVec 2) (slot : BitVec 4) :
    Agree b (execFxper bus slot s) (execFxper bus slot (s.withHistory c b)) := by
  cases hbus : busOf bus with
  | none =>
    rw [execFxper_of_no_bus hbus, execFxper_of_no_bus hbus]
    exact agree_raise (by decide)
  | some k =>
    cases hp : s.ptab[k][slot.toNat]? with
    | none =>
      rw [execFxper_of_no_slot hbus hp, execFxper_of_no_slot hbus (s := s.withHistory c b) hp]
      exact agree_raise (by decide)
    | some p =>
      rw [execFxper_of_slot hbus hp, execFxper_of_slot hbus (s := s.withHistory c b) hp]
      exact agree_settle fun _ => fieldCheck_ne_ok

/-- No check and no effect of a command but CLRERR's looks at CODE or STICKY. -/
theorem exec_agree {i : Instr} (hi : i ≠ .clrerr) : Agree b (exec i s) (exec i (s.withHistory c b)) := by
  cases i with
  | nop | setid | cfgclr => exact agree_complete
  | clrerr => exact absurd rfl hi
  | alloc | setbit | getbit | crcgen | layout => exact agree_raise_or_complete (by decide)
  | getrange | getnext => exact agree_settle fun _ => rangeCheck_ne_ok
  | framechk => exact execFramechk_agree s c b
  | setch => exact execSetch_agree s c b _ _
  | setenc => exact execSetenc_agree s c b _ _
  | attach => exact execAttach_agree s c b _ _ _
  | fxch => exact execFxch_agree s c b _
  | fxenc => exact execFxenc_agree s c b _ _
  | fxper => exact execFxper_agree s c b _ _

end

/-- Settles O47: CLRERR never fails and writes both fields; every other command by `exec_agree`. -/
theorem commandsIgnoreEarlierErrors : Obligations.CommandsIgnoreEarlierErrors := by
  intro i s t c b h
  by_cases hi : i = .clrerr
  · subst hi
    obtain rfl := execClrerr_cases _ _ h
    rfl
  · rw [if_neg hi]
    exact exec_agree s c b hi t h

/-! ### What clears STICKY (rules R227 and R228) -/

/-- The one command that clears STICKY is CLRERR: no other writes it but with an error, which sets it. -/
theorem exec_clears_sticky {i : Instr} {s t : State} (h : exec i s = .next t) (hs : s.sticky = true)
    (ht : t.sticky = false) : i = .clrerr := by
  rcases exec_endsWell i s t h with ⟨e, -, rfl⟩ | ⟨-, hkeep⟩
  · cases ht
  · by_contra hi
    simp [hkeep hi, hs] at ht

/-- Settles O48: no access to the block clears STICKY, so the input was a reset or a legal word at CMD, and that word
is CLRERR's. -/
theorem stickyIsClearedOnlyByClrerrOrReset : Obligations.StickyIsClearedOnlyByClrerrOrReset := by
  intro s t hs h ht
  have hne : t.sticky ≠ s.sticky := by simp [hs, ht]
  rcases step_outcomes s t h with ⟨-, rfl⟩ | ⟨rest, hin, -⟩ | ⟨rest, a, n, -, hread⟩ |
    ⟨rest, w, i, hin, hw, hexec⟩ | ⟨rest, w, e, -, -, rfl⟩ | ⟨rest, a, n, d, -, hwrite⟩
  · exact absurd rfl hne
  · exact ⟨rest, .inl hin⟩
  · rcases hread with ⟨v, rfl⟩ | ⟨e, -, rfl⟩
    · exact absurd rfl hne
    · cases ht
  · obtain rfl := exec_clears_sticky hexec hs ht
    obtain rfl := word_of_decode hw rfl
    exact ⟨rest, .inr hin⟩
  · cases ht
  · rcases hwrite with rfl | rfl | ⟨j, -, rfl⟩ | ⟨e, -, rfl⟩
    · exact absurd rfl hne
    · exact absurd rfl hne
    · exact absurd rfl hne
    · cases ht

end Sys2Proof.Machine

namespace Sys2Proof.Machine

/-! ### The frame of zeros (rule R253) -/

theorem crcByte_zero : crcByte 0#16 0#8 = 0#16 := crcShifts_zero 8

/-- The register starts at zero, and a zero byte leaves it so (rule R140). -/
theorem crc16_replicate_zero (n : Nat) : crc16 (List.replicate n 0#8) = 0#16 := by
  change crcFrom 0#16 _ = 0#16
  induction n with
  | zero => rfl
  | succ n ih => rw [List.replicate_succ, crcFrom_cons, crcByte_zero, ih]

/-- Settles O30: the checksum of the zero payload is the zero trailer, and the zero identity byte is IDENT, so the
pass of rule R143 applies. -/
theorem allZeroFramePassesWithZeroIdent : Obligations.AllZeroFramePassesWithZeroIdent := by
  intro s hident hlen hzero
  have hid : Memory.read s.mem 0 = s.ident := (hzero 0 (by omega)).trans hident.symm
  have hpayload : (List.range (s.len.toNat - 2)).map (fun j => Memory.read s.mem j) =
      List.replicate (s.len.toNat - 2) 0#8 := by
    rw [List.map_eq_replicate_iff.2 fun j hj => hzero j ?_, List.length_range]
    have := List.mem_range.1 hj
    omega
  have hcrc : 0#16 = crc16 ((List.range (s.len.toNat - 2)).map fun j => Memory.read s.mem j) := by
    rw [hpayload, crc16_replicate_zero]
  have htrailer : 0#16 = Memory.read s.mem (s.len.toNat - 2) ++ Memory.read s.mem (s.len.toNat - 1) := by
    rw [hzero _ (by omega), hzero _ (by omega)]
    rfl
  obtain ⟨-, -, hgate⟩ := framechkGatesTheFrame.2 s
  exact (hgate hlen hid _ hcrc).1 htrailer

/-! ### The platform's reset (rule R250) -/

theorem step_reset {s : State} {rest : List Input} (hin : s.inputs = .reset :: rest) :
    step s = .next { s with toBlock := Block.reset, inputs := rest } := by
  rw [step, hin]
  rfl

/-- Every item of rule R250, in the order of `HasResetValues`. -/
theorem hasResetValues_reset : HasResetValues Block.reset where
  buffer := Memory.read_nil
  registers := ⟨rfl, rfl, rfl, rfl, rfl, rfl⟩
  status := ⟨rfl, rfl, rfl, rfl, rfl, rfl, rfl⟩
  channels _ := Vector.getElem_replicate ..
  encoders _ := Vector.getElem_replicate ..
  identity := rfl
  frameLength := rfl
  peripherals _ := Vector.getElem_replicate ..

/-- Settles O10: both states hold `Block.reset`, and the parameters stand outside the block. -/
theorem resetGivesEveryPieceItsValue : Obligations.ResetGivesEveryPieceItsValue :=
  ⟨hasResetValues_reset, fun _ _ hin => ⟨_, step_reset hin, hasResetValues_reset, rfl, rfl⟩⟩

end Sys2Proof.Machine

namespace Sys2Proof.Machine

/-! ### The parameters and the host's side of the port (rule R250, log entries 3 and 9) -/

/-- Settles O12, by the outcomes of a step: each takes its access from the inputs, and a command then leaves the
parameters and the inputs alone by `exec_onlyNamedWrites`. -/
theorem stepKeepsTheParameters : Obligations.StepKeepsTheParameters := by
  intro s t h
  rcases step_outcomes s t h with ⟨hin, rfl⟩ | ⟨rest, hin, rfl⟩ | ⟨rest, a, n, hin, hread⟩ |
    ⟨rest, w, i, hin, -, hexec⟩ | ⟨rest, w, e, hin, -, rfl⟩ | ⟨rest, a, n, d, hin, hwrite⟩ <;>
    rw [hin, List.tail]
  · exact ⟨rfl, rfl, rfl⟩
  · exact ⟨rfl, rfl, rfl⟩
  · rcases hread with ⟨v, rfl⟩ | ⟨e, -, rfl⟩ <;> exact ⟨rfl, rfl, rfl⟩
  · have hwrites := exec_onlyNamedWrites hexec
    exact ⟨hwrites.bufCap, hwrites.blockBase, hwrites.inputs⟩
  · exact ⟨rfl, rfl, rfl⟩
  · rcases hwrite with rfl | rfl | ⟨j, -, rfl⟩ | ⟨e, -, rfl⟩ <;> exact ⟨rfl, rfl, rfl⟩

/-- Settles O11: the inputs and the data of the latest read stand outside the block that `step_reset` replaces. -/
theorem resetLeavesTheHostSide : Obligations.ResetLeavesTheHostSide := by
  intro s t rest hin h
  obtain rfl := Host.Outcome.next.inj ((step_reset hin).symm.trans h)
  exact ⟨rfl, rfl⟩

/-! ### The vectors' words (95_test_vectors.md) -/

theorem decode_of_encode_eq {w : Word} {i : Instr} (hw : encode i = w) (hwf : i.wellFormed = true) :
    decode w = .ok i :=
  hw ▸ decodeOfEncode i hwf

/-- Settles O4: each word is the encoding of its command, whose operands the encoding can hold. -/
theorem vectorWordsDecode : Obligations.VectorWordsDecode :=
  ⟨decode_of_encode_eq rfl rfl, decode_of_encode_eq rfl rfl, decode_of_encode_eq rfl rfl,
    decode_of_encode_eq rfl rfl, decode_of_encode_eq rfl rfl, decode_of_encode_eq rfl rfl⟩

/-! ### A frame of any length (rule R105, log entry 15) -/

/-- An ALLOC of the length in 16 bits, and a write of every byte. -/
theorem expand_frame (base : Nat) (bytes : List Byte) :
    expand base (.frame bytes) =
      .write base 4 (encode (.alloc (BitVec.ofNat 16 bytes.length))) ::
        (List.range bytes.length).map (fun j => .write (base + 0x100 + j) 1 ((bytes.getD j 0#8).setWidth 32)) := by
  rw [expand, writeBytesFrom_eq_map]
  simp [issue, writeReg, regOffset, bufAddress, Config.bufWindow]

/-- Settles O57: `BitVec.ofNat` takes the length modulo 2^16. -/
theorem overlongFrameExpands : Obligations.OverlongFrameExpands :=
  fun base bytes _ => ⟨BitVec.ofNat 16 bytes.length, BitVec.toNat_ofNat .., expand_frame base bytes⟩

end Sys2Proof.Machine
